-- ==== Sys2Proof/Word.lean ====
section
/-! DEFINITION. The widths the spec gives the words that cross the ports (30_encoding.md R60, R66). -/

namespace Sys2Proof

/-- A response or a sample, `rsp[7:0]`, `sample[7:0]` (R66, R75). -/
abbrev Byte := BitVec 8

/-- An operation word, `op_word[35:0]` (R60). -/
abbrev OpWord := BitVec 36

/-- The opcode field, `op_word[35:32]` (R60). -/
abbrev Opcode := BitVec 4

/-- The argument field, `op_word[31:0]` (R60). -/
abbrev Arg := BitVec 32

/-- The container of `PHASE` and `INC`: the registers are its low `W <= 32` bits (R6, R21, R22; log 3). -/
abbrev Accum := BitVec 32

end Sys2Proof
end

