-- ==== Sys2Proof/Syntax.lean ====
section
/-! DEFINITION. The operations: one constructor per row of spec/opcode_table.json (30_encoding.md R61, R69), with the
argument bits the row gives a meaning to. Ignored argument bits are no part of the operation (R67, R68). -/

namespace Sys2Proof

/-- The twelve rows of the opcode table. -/
inductive Instr where
  /-- NEXT_SAMPLE (R80); `arg` ignored (R68). -/
  | nextSample
  /-- SET_WAVEFORM (R100): the selector is the whole 32-bit `arg` (R65). -/
  | setWaveform (selector : Arg)
  /-- GET_WAVEFORM (R102); `arg` ignored (R68). -/
  | getWaveform
  /-- SET_PULSE_WIDTH (R103): the threshold is `arg[7:0]` (R67). -/
  | setPulseWidth (threshold : BitVec 8)
  /-- SETF_INT (R112): an unsigned number of Hz (R62). -/
  | setfInt (hertz : Arg)
  /-- SETF_FLOAT (R113): a binary32 pattern (R64). -/
  | setfFloat (pattern : Arg)
  /-- SETF_Q24N8 (R114): an unsigned Q24.8 number (R63). -/
  | setfQ24n8 (raw : Arg)
  /-- SETF_Q16N16 (R115): an unsigned Q16.16 number (R63). -/
  | setfQ16n16 (raw : Arg)
  /-- RESERVED_0 (R69): `op = 0x0`. -/
  | reserved0
  /-- RESERVED_5 (R69): `op = 0x5`. -/
  | reserved5
  /-- RESERVED_6_7 (R69): `op` is `0x6` or `0x7`. -/
  | reserved6to7 (op : Opcode)
  /-- RESERVED_C_F (R69): `op` is one of `0xC` to `0xF`. -/
  | reservedCtoF (op : Opcode)
  deriving DecidableEq, Repr

end Sys2Proof
end

