-- ==== Sys2Proof/WellFormed.lean ====
section
/-! DEFINITION. Which terms of `Instr` some word encodes: the two reserved rows of several opcodes hold one of
their own opcodes (30_encoding.md R69). Every other operand is a whole field, so every value of it is encodable. -/

namespace Sys2Proof

/-- A term that some 36-bit word decodes to. -/
def Instr.wf : Instr → Bool
  | .reserved6to7 op => op == 0x6 || op == 0x7
  | .reservedCtoF op => op == 0xC || op == 0xD || op == 0xE || op == 0xF
  | .nextSample => true
  | .setWaveform _ => true
  | .getWaveform => true
  | .setPulseWidth _ => true
  | .setfInt _ => true
  | .setfFloat _ => true
  | .setfQ24n8 _ => true
  | .setfQ16n16 _ => true
  | .reserved0 => true
  | .reserved5 => true

end Sys2Proof
end

