-- ==== Sys2Proof/Decode.lean ====
section
/-! DEFINITION. From operation words to operations and back (30_encoding.md R60 to R70), and the opcode table's
masks and matches (R70). -/

namespace Sys2Proof

/-- `op = op_word[35:32]` (R60). -/
def opField (w : OpWord) : Opcode := w.extractLsb' 32 4

/-- `arg = op_word[31:0]` (R60). -/
def argField (w : OpWord) : Arg := w.extractLsb' 0 32

/-- The word `{op, arg}` (R60, R11). -/
def opWord (op : Opcode) (arg : Arg) : OpWord := op ++ arg

/-- The decoder reads `op` and is total: every word is one of the eight operations or reserved (R61, R69, R70). -/
def decode (w : OpWord) : Instr :=
  let arg := argField w
  match (opField w).toNat with
  | 0x0 => .reserved0
  | 0x1 => .nextSample
  | 0x2 => .setWaveform arg
  | 0x3 => .getWaveform
  | 0x4 => .setPulseWidth (arg.extractLsb' 0 8)
  | 0x5 => .reserved5
  | 0x6 => .reserved6to7 0x6
  | 0x7 => .reserved6to7 0x7
  | 0x8 => .setfInt arg
  | 0x9 => .setfFloat arg
  | 0xA => .setfQ24n8 arg
  | 0xB => .setfQ16n16 arg
  -- the four opcodes left, 0xC to 0xF
  | _ => .reservedCtoF (opField w)

/-- The canonical word of an operation: ignored argument bits are 0 (R61, R67, R68, R69). -/
def encode : Instr → OpWord
  | .nextSample => opWord 0x1 0
  | .setWaveform selector => opWord 0x2 selector
  | .getWaveform => opWord 0x3 0
  | .setPulseWidth threshold => opWord 0x4 (threshold.zeroExtend 32)
  | .setfInt hertz => opWord 0x8 hertz
  | .setfFloat pattern => opWord 0x9 pattern
  | .setfQ24n8 raw => opWord 0xA raw
  | .setfQ16n16 raw => opWord 0xB raw
  | .reserved0 => opWord 0x0 0
  | .reserved5 => opWord 0x5 0
  | .reserved6to7 op => opWord op 0
  | .reservedCtoF op => opWord op 0

/-- The mask of the operation's row in opcode_table.json (R70, and R69 for the two rows of several opcodes). -/
def Instr.tableMask : Instr → OpWord
  | .reserved6to7 _ => 0xE00000000
  | .reservedCtoF _ => 0xC00000000
  | .nextSample => 0xF00000000
  | .setWaveform _ => 0xF00000000
  | .getWaveform => 0xF00000000
  | .setPulseWidth _ => 0xF00000000
  | .setfInt _ => 0xF00000000
  | .setfFloat _ => 0xF00000000
  | .setfQ24n8 _ => 0xF00000000
  | .setfQ16n16 _ => 0xF00000000
  | .reserved0 => 0xF00000000
  | .reserved5 => 0xF00000000

/-- The match of the operation's row in opcode_table.json (R61, R69, R70). -/
def Instr.tableMatch : Instr → OpWord
  | .nextSample => 0x100000000
  | .setWaveform _ => 0x200000000
  | .getWaveform => 0x300000000
  | .setPulseWidth _ => 0x400000000
  | .setfInt _ => 0x800000000
  | .setfFloat _ => 0x900000000
  | .setfQ24n8 _ => 0xA00000000
  | .setfQ16n16 _ => 0xB00000000
  | .reserved0 => 0x000000000
  | .reserved5 => 0x500000000
  | .reserved6to7 _ => 0x600000000
  | .reservedCtoF _ => 0xC00000000

/-- Why a number is not an operation word. -/
inductive WordError where
  /-- It has a bit above bit 35, and the command port has no such line (R60, R73). Safe: nothing is executed. -/
  | bitAbove35
  deriving DecidableEq, Repr

/-- The operation word a number stands for: words cross the port whole, bit 0 least significant (R42, R11; log 12). -/
def wordOfNat (n : Nat) : Except WordError OpWord :=
  if n < 2 ^ 36 then .ok (BitVec.ofNat 36 n) else .error .bitAbove35

/-- The operation the decoder reads from a table row's bits; bits above `nbits` are 0. -/
def decodeTableWord (nbits w : Nat) : Option Instr :=
  match wordOfNat (w % 2 ^ nbits) with
  | .ok word => some (decode word)
  | .error _ => none

end Sys2Proof
end

