-- ==== Sys2Proof/Config.lean ====
section
/-! DEFINITION. What is fixed when an instance is built (00_scope.md R5 to R10), and the values the spec leaves
free (93_implementation_defined.md U15). -/

namespace Sys2Proof

/-- The ranges of 00_scope.md R5, R6, R7 and R9: `T = 2^IB` is one of 2, 4, …, 256, `IB + F <= 32`,
`1 <= R <= 2^32 - 1`, and the seed is not 0. -/
def parametersInRange (indexBits fracBits updateRate : Nat) (noiseSeed : BitVec 16) : Bool :=
  decide (1 ≤ indexBits) && decide (indexBits ≤ 8) && decide (indexBits + fracBits ≤ 32) &&
    decide (1 ≤ updateRate) && decide (updateRate < 2 ^ 32) && noiseSeed != 0

/-- The construction-time parameters of one instance (R8). A value outside the ranges is no configuration of this
block (R5, R154; 93_implementation_defined.md U7, U8: refused), so none can be built (log 10). -/
structure Config where
  /-- `IB`, the number of index bits (R5). -/
  indexBits : Nat
  /-- `F`, the number of fractional bits (R6). -/
  fracBits : Nat
  /-- `R`, the update rate (R7). -/
  updateRate : Nat
  /-- `NOISE_SEED` (R9). -/
  noiseSeed : BitVec 16
  /-- `PW_RESET` (R9). -/
  pwReset : Byte
  /-- The ranges hold. -/
  inRange : parametersInRange indexBits fracBits updateRate noiseSeed = true
  deriving DecidableEq, Repr

/-- `T`, the table size (R5). -/
def Config.tableSize (c : Config) : Nat := 2 ^ c.indexBits

/-- `W = IB + F`, the width of `PHASE` and `INC` (R6). -/
def Config.width (c : Config) : Nat := c.indexBits + c.fracBits

/-- The reference profile (R10): `T = 256`, `F = 16`, `R = 16000`, seed `0xACE1`, `PW_RESET = 0x80`. -/
def Config.reference : Config where
  indexBits := 8
  fracBits := 16
  updateRate := 16000
  noiseSeed := 0xACE1
  pwReset := 0x80
  inRange := by decide

/-- What `sample[7:0]` carries at the n-th port instant while `sample_valid` is low: any value (U15; log 7). -/
opaque Config.idleSampleLines : Nat → Byte

/-- What `rsp[7:0]` carries at the n-th port instant while `rsp_valid` is low: any value (U15; log 7). -/
opaque Config.idleRspLines : Nat → Byte

end Sys2Proof
end

