-- ==== Sys2Proof/Machine/State.lean ====
section
/-! DEFINITION. The state of one instance: six registers (10_state.md R20), the ports (30_encoding.md R73), and the
instance's configuration beside them (00_scope.md R8). -/

namespace Sys2Proof.Machine

/-- What the outside presents at one port instant (30_encoding.md R73). -/
structure PortInput where
  /-- `rst` is asserted. -/
  rst : Bool
  /-- `tick`: a sample request on the sample port. -/
  tick : Bool
  /-- `cmd_valid` with `cmd_word[35:0]`; none when `cmd_valid` is low. -/
  cmd : Option OpWord
  deriving DecidableEq, Repr

/-- One instance. -/
structure State where
  /-- The instance's parameters; no step writes them (R8, R27; log 1). -/
  config : Config
  /-- `PHASE`, the low `W` bits (R21; log 3). -/
  phase : Accum
  /-- `INC`, the low `W` bits (R22; log 3). -/
  inc : Accum
  /-- `WAVE`: SAW 0, TRIANGLE 1, RECTANGLE 2, NOISE 3 (R23). -/
  wave : BitVec 2
  /-- `PW` (R24). -/
  pw : BitVec 8
  /-- `LFSR` (R25). -/
  lfsr : BitVec 16
  /-- `FAULT`: bit 0 `WAVE_SEL`, 1 `RATE`, 2 `OVF`, 3 `OP` (R26). -/
  fault : BitVec 4
  /-- What the outside presents at the instants to come, the next one first (R29, R46, R47; log 4). -/
  inputs : List PortInput
  /-- `sample[7:0]` with `sample_valid`; none while the valid line is low (R73; log 6). -/
  sample : Option Byte
  /-- `rsp[7:0]` with `rsp_valid`; none while the valid line is low (R66, R73; log 6). -/
  rsp : Option Byte
  /-- The model's own: port instants passed, the index of the free values of U15 (log 7). -/
  instants : Nat
  deriving DecidableEq, Repr

/-- Reasons a step stops with a fault. There is none: every operation completes, in every state, with every
argument, and a contract violation is a bit of `FAULT` in a next state (60_exceptions.md R130, R133; log 14). -/
inductive Fault where
  deriving DecidableEq, Repr

/-- Reasons an operation has no meaning. -/
inductive Refusal where
  /-- Raised by `exec` alone, for an operation not modelled yet; no arm raises it (R130). Safe: nothing is executed. -/
  | notModelled (mnemonic : String)
  deriving DecidableEq, Repr

/-- The instance built with a configuration, right after reset (70_reset_and_hazards.md R150). -/
def State.ofConfig (c : Config) : State where
  config := c
  phase := 0
  inc := 0
  wave := 0
  pw := c.pwReset
  lfsr := c.noiseSeed
  fault := 0
  inputs := []
  sample := none
  rsp := none
  instants := 0

/-- The reference instance right after reset (R10, R150; log 2). -/
def State.reset : State := State.ofConfig Config.reference

end Sys2Proof.Machine
end

