-- ==== Sys2Proof/Machine/Flags.lean ====
section
/-! DEFINITION. The sticky violation flags (10_state.md R26, 60_exceptions.md R131, R132). -/

namespace Sys2Proof.Machine

/-- The four causes of 60_exceptions.md R131, in the order of their codes. -/
inductive Violation where
  /-- Cause 1, `WAVE_SEL`: an unrecognized waveform selector (R101). -/
  | waveSel
  /-- Cause 2, `RATE`: a fixed-point frequency operation with `R <= 64` (R117). -/
  | rate
  /-- Cause 3, `OVF`: a frequency too large for `INC`, or not a non-negative finite number (R116, R122). -/
  | ovf
  /-- Cause 4, `OP`: a reserved opcode (R69). -/
  | op
  deriving DecidableEq, Repr

/-- The bit of `FAULT` a cause sets, one below its code (R131). -/
def Violation.bit : Violation → Nat
  | .waveSel => 0
  | .rate => 1
  | .ovf => 2
  | .op => 3

/-- `FAULT OR (1 << bit(X))` (R132). -/
def faultWith (v : Violation) (fault : BitVec 4) : BitVec 4 := fault ||| (1#4 <<< v.bit)

/-- `set FAULT.X`: one bit is set, the others are kept (R132). Nothing else happens on a violation: there is no
trap, no control transfer, and nothing is saved (R133). -/
def setFault (v : Violation) (s : State) : State := { s with fault := faultWith v s.fault }

end Sys2Proof.Machine
end

