-- ==== Sys2Proof/Machine/Operands.lean ====
section
/-! DEFINITION. The operand forms (30_encoding.md R62 to R68) and the forms of a response (R66, R75). -/

namespace Sys2Proof.Machine

/-- `pattern_8(v)`, the byte that carries the integer `v` in two's complement (00_scope.md R12, 30_encoding.md R75). -/
def pattern8 (v : Int) : Byte := BitVec.ofInt 8 v

/-- `signed_8(p)`, the integer a byte denotes in two's complement (R11, R12). -/
def signed8 (p : Byte) : Int := p.toInt

/-- A selector is recognized when it is one of the four codes (R65, R100). -/
def selectorRecognized (selector : Arg) : Bool := decide (selector.toNat ≤ 3)

/-- The code of a recognized selector, `arg[1:0]` (R100). -/
def selectorCode (selector : Arg) : BitVec 2 := selector.extractLsb' 0 2

/-- The four waveforms (10_state.md R23). -/
inductive Waveform where
  | saw
  | triangle
  | rectangle
  | noise
  deriving DecidableEq, Repr

/-- The waveform a code of `WAVE` selects (R23). -/
def waveformOf (code : BitVec 2) : Waveform :=
  match code.toNat with
  | 0 => .saw
  | 1 => .triangle
  | 2 => .rectangle
  -- the one code left, 3
  | _ => .noise

/-- A non-negative frequency `numerator / 2^exponent` Hz, the form in which every entry point hands its argument to
the one conversion (42_frequency_conversion.md R123); a negative exponent multiplies. -/
structure Frequency where
  numerator : Nat
  exponent : Int
  deriving DecidableEq, Repr

/-- SETF_INT: `f = arg` (R62). -/
def frequencyOfInt (hertz : Arg) : Frequency := ⟨hertz.toNat, 0⟩

/-- SETF_Q24N8: `f = arg / 2^8` (R63). -/
def frequencyOfQ24n8 (raw : Arg) : Frequency := ⟨raw.toNat, 8⟩

/-- SETF_Q16N16: `f = arg / 2^16` (R63). -/
def frequencyOfQ16n16 (raw : Arg) : Frequency := ⟨raw.toNat, 16⟩

/-- The sign of a binary32 pattern, `arg[31]` (R64). -/
def binary32Sign (pattern : Arg) : Bool := pattern.getLsbD 31

/-- The biased exponent of a binary32 pattern, `arg[30:23]` (R64). -/
def binary32Exponent (pattern : Arg) : BitVec 8 := pattern.extractLsb' 23 8

/-- The fraction field of a binary32 pattern, `arg[22:0]` (R64). -/
def binary32Fraction (pattern : Arg) : BitVec 23 := pattern.extractLsb' 0 23

/-- The magnitude of a finite pattern: `m * 2^-149` when `e = 0`, else `(2^23 + m) * 2^(e - 150)` (R64, R122, R123). -/
def binary32Magnitude (pattern : Arg) : Frequency :=
  let e := (binary32Exponent pattern).toNat
  let m := (binary32Fraction pattern).toNat
  if e = 0 then ⟨m, 149⟩ else ⟨2 ^ 23 + m, 150 - e⟩

/-- The classes SETF_FLOAT tells apart (R113, R122). -/
inductive FloatClass where
  /-- Zero of either sign. -/
  | zero
  /-- Positive and finite, with its exact value. -/
  | positive (x : Frequency)
  /-- Negative, finite and not zero. -/
  | negative
  | plusInfinity
  | minusInfinity
  /-- Whatever the sign, quiet or signalling. -/
  | notANumber
  deriving DecidableEq, Repr

/-- The class of a binary32 pattern (R122). -/
def floatClass (pattern : Arg) : FloatClass :=
  if binary32Exponent pattern = 255 then
    if binary32Fraction pattern ≠ 0 then .notANumber
    else if binary32Sign pattern then .minusInfinity
    else .plusInfinity
  else if binary32Exponent pattern = 0 ∧ binary32Fraction pattern = 0 then .zero
  else if binary32Sign pattern then .negative
  else .positive (binary32Magnitude pattern)

end Sys2Proof.Machine
end

