-- ==== Sys2Proof/Machine/Ops.lean ====
section
/-! DEFINITION. The shared operations over the registers and the ports. -/

namespace Sys2Proof.Machine

/-! ### Responses -/

/-- `rsp <- v` (00_scope.md R12, 30_encoding.md R66). -/
def answer (v : Byte) (s : State) : State := { s with rsp := some v }

/-- What a contract violation does beside its effect on the data registers: the flag is set and the operation
completes with the response 0x00, like any other (60_exceptions.md R131, R132, R133). -/
def violate (v : Violation) (s : State) : State := answer 0x00 (setFault v s)

/-! ### The phase accumulator -/

/-- `(PHASE + INC) mod 2^W` (40_sample_generation.md R81). -/
def advancedPhase (c : Config) (phase inc : Accum) : Accum :=
  BitVec.ofNat 32 ((phase.toNat + inc.toNat) % 2 ^ c.width)

/-- `(phase' >> F) & (T - 1)` (40_sample_generation.md R82). -/
def tableIndex (c : Config) (phase : Accum) : Nat :=
  (phase.toNat >>> c.fracBits) &&& (c.tableSize - 1)

/-! ### The one conversion and its commit -/

/-- `q(f) = floor(f * 2^W / R)`, for `f = n / 2^d`: `floor(n * 2^W / (R * 2^d))`, evaluated exactly, with a
negative `d` as a multiplication (42_frequency_conversion.md R110, R123). -/
def increment (c : Config) (f : Frequency) : Nat :=
  f.numerator * 2 ^ (-f.exponent).toNat * 2 ^ c.width / (c.updateRate * 2 ^ f.exponent.toNat)

/-- `2^W - 1`, the largest increment (R116). -/
def largestIncrement (c : Config) : Accum := BitVec.ofNat 32 (2 ^ c.width - 1)

/-- `INC <- v`, all `W` bits together (R118). -/
def writeInc (v : Accum) (s : State) : State := { s with inc := v }

/-- `commit(q)` (R111, R116). -/
def commit (q : Nat) (s : State) : State :=
  if q < 2 ^ s.config.width then answer 0x00 (writeInc (BitVec.ofNat 32 q) s)
  else violate .ovf (writeInc (largestIncrement s.config) s)

/-- The update rate exceeds 64 units (R117). -/
def rateAllowsFixedPoint (c : Config) : Bool := decide (64 < c.updateRate)

/-! ### Reset -/

/-- The six registers at their reset values, all together (70_reset_and_hazards.md R150). -/
def resetRegisters (s : State) : State :=
  { s with
    phase := 0
    inc := 0
    wave := 0
    pw := s.config.pwReset
    lfsr := s.config.noiseSeed
    fault := 0 }

/-! ### The ports -/

/-- What one port instant makes the block do. -/
inductive PortEvent where
  /-- No request: nothing is performed (30_encoding.md R73). -/
  | idle
  /-- `rst` is asserted (70_reset_and_hazards.md R150). -/
  | reset
  /-- A command word to perform. -/
  | command (word : OpWord)
  /-- A sample request to perform. -/
  | sample
  deriving DecidableEq, Repr

/-- A port instant begins: both valid lines are low until an operation answers (log 6). -/
def beginInstant (inputs : List PortInput) (s : State) : State :=
  { s with inputs := inputs, sample := none, rsp := none, instants := s.instants + 1 }

/-- Which request is performed next. `rst` overrides both ports and what is presented with it is discarded
(R150, 60_exceptions.md R136); a command goes before a coinciding sample request, which is held at its port
(20_memory.md R51; log 5). -/
def nextEvent (s : State) : PortEvent × State :=
  match s.inputs with
  | [] => (.idle, beginInstant [] s)
  | p :: later =>
    if p.rst then (.reset, beginInstant later s)
    else
      match p.cmd with
      | some word =>
        (.command word,
          beginInstant (if p.tick then { rst := false, tick := true, cmd := none } :: later else later) s)
      | none => if p.tick then (.sample, beginInstant later s) else (.idle, beginInstant later s)

/-- The response to a `tick` goes out on the sample port instead of the command port (30_encoding.md R73). -/
def answerOnSamplePort (s : State) : State := { s with sample := s.rsp, rsp := none }

/-- The outcome of the operation a `tick` performs, with its response on the sample port. -/
def onSamplePort : Host.Outcome State Fault Refusal → Host.Outcome State Fault Refusal
  | .next s => .next (answerOnSamplePort s)
  | .fault f => .fault f
  | .refused r => .refused r

/-- An Owner presents a command word at the next port instant, before everything else (30_encoding.md R73; log 11). -/
def presentCommand (word : OpWord) (s : State) : State :=
  { s with inputs := { rst := false, tick := false, cmd := some word } :: s.inputs }

/-- The lines `sample[7:0]` (R73): any value while `sample_valid` is low (93_implementation_defined.md U15). -/
def State.sampleLines (s : State) : Byte := s.sample.getD (Config.idleSampleLines s.instants)

/-- The lines `rsp[7:0]` (R73): any value while `rsp_valid` is low (U15). -/
def State.rspLines (s : State) : Byte := s.rsp.getD (Config.idleRspLines s.instants)

/-- The lines `fault[3:0]`, always driven (R73, 60_exceptions.md R132). -/
def State.faultLines (s : State) : BitVec 4 := s.fault

end Sys2Proof.Machine
end

