-- ==== Sys2Proof/Machine/Configuration.lean ====
section
/-! DEFINITION. The configuration operations that are not frequency conversions (41_configuration.md). -/

namespace Sys2Proof.Machine

/-- SET_WAVEFORM: a recognized selector is stored; any other is ignored and recorded (R100, R101). -/
def execSetWaveform (selector : Arg) (s : State) : Host.Outcome State Fault Refusal :=
  if selectorRecognized selector then .next (answer 0x00 { s with wave := selectorCode selector })
  else .next (violate .waveSel s)

/-- GET_WAVEFORM: answers `zext_8(WAVE)` and writes nothing (R102). -/
def execGetWaveform (s : State) : Host.Outcome State Fault Refusal :=
  .next (answer (s.wave.zeroExtend 8) s)

/-- SET_PULSE_WIDTH: `PW <- arg[7:0]` (R103). -/
def execSetPulseWidth (threshold : BitVec 8) (s : State) : Host.Outcome State Fault Refusal :=
  .next (answer 0x00 { s with pw := threshold })

end Sys2Proof.Machine
end

