-- ==== Sys2Proof/Machine/Frequency.lean ====
section
/-! DEFINITION. The four frequency operations (42_frequency_conversion.md): one conversion, four operand forms (R123). -/

namespace Sys2Proof.Machine

/-- A fixed-point frequency operation: ignored and recorded when `R <= 64`, before its argument is examined; else
the exact conversion is committed (R114, R115, R117; 60_exceptions.md R134). -/
def fixedPointFrequency (f : Frequency) (s : State) : State :=
  if rateAllowsFixedPoint s.config then commit (increment s.config f) s else violate .rate s

/-- SETF_INT (R112). -/
def execSetfInt (hertz : Arg) (s : State) : Host.Outcome State Fault Refusal :=
  .next (commit (increment s.config (frequencyOfInt hertz)) s)

/-- SETF_FLOAT, by the class of the pattern (R113, R122). -/
def execSetfFloat (pattern : Arg) (s : State) : Host.Outcome State Fault Refusal :=
  match floatClass pattern with
  | .zero => .next (commit 0 s)
  | .positive x => .next (commit (increment s.config x) s)
  | .negative => .next (violate .ovf (writeInc 0 s))
  | .plusInfinity => .next (violate .ovf (writeInc (largestIncrement s.config) s))
  | .minusInfinity => .next (violate .ovf (writeInc 0 s))
  | .notANumber => .next (violate .ovf s)

/-- SETF_Q24N8 (R114). -/
def execSetfQ24n8 (raw : Arg) (s : State) : Host.Outcome State Fault Refusal :=
  .next (fixedPointFrequency (frequencyOfQ24n8 raw) s)

/-- SETF_Q16N16 (R115). -/
def execSetfQ16n16 (raw : Arg) (s : State) : Host.Outcome State Fault Refusal :=
  .next (fixedPointFrequency (frequencyOfQ16n16 raw) s)

end Sys2Proof.Machine
end

