-- ==== Sys2Proof/Machine/Reserved.lean ====
section
/-! DEFINITION. The reserved opcodes (30_encoding.md R69): each sets `FAULT.OP`, changes no other register, and
answers 0x00, whatever `arg` holds. -/

namespace Sys2Proof.Machine

/-- RESERVED_0. -/
def execReserved0 (s : State) : Host.Outcome State Fault Refusal := .next (violate .op s)

/-- RESERVED_5. -/
def execReserved5 (s : State) : Host.Outcome State Fault Refusal := .next (violate .op s)

/-- RESERVED_6_7: the two opcodes act alike. -/
def execReserved6to7 (s : State) : Host.Outcome State Fault Refusal := .next (violate .op s)

/-- RESERVED_C_F: the four opcodes act alike. -/
def execReservedCtoF (s : State) : Host.Outcome State Fault Refusal := .next (violate .op s)

end Sys2Proof.Machine
end

