-- ==== Sys2Proof/Machine/Sample.lean ====
section
/-! DEFINITION. Sample generation: NEXT_SAMPLE and the four derivations (40_sample_generation.md). -/

namespace Sys2Proof.Machine

/-- `saw(index) = index - T/2` (R83). -/
def saw (c : Config) (index : Nat) : Int := (index : Int) - (c.tableSize / 2 : Nat)

/-- `2*index - T/2` in the lower half, `2*(index XOR (T-1)) - T/2` in the upper half, which begins at `T/2` (R84). -/
def triangle (c : Config) (index : Nat) : Int :=
  if index < c.tableSize / 2 then 2 * (index : Int) - (c.tableSize / 2 : Nat)
  else 2 * ((index ^^^ (c.tableSize - 1) : Nat) : Int) - (c.tableSize / 2 : Nat)

/-- `+127` when the zero-extended index exceeds `PW`, else `-127` (R85). -/
def rectangle (index : Nat) (pw : BitVec 8) : Int := if pw.toNat < index then 127 else -127

/-- The tap mask of the noise generator, bits 15, 13, 12 and 10 (R86). -/
def tapMask : BitVec 16 := 0xB400

/-- One step of the noise register: shift right, then exclusive-OR the mask when the bit shifted out was 1 (R86). -/
def lfsrStep (s : BitVec 16) : BitVec 16 := (s >>> 1) ^^^ (if s.getLsbD 0 then tapMask else 0)

/-- The noise sample, `signed_8(lfsr'[15:8])` (R86). -/
def noiseSample (lfsr : BitVec 16) : Int := signed8 (lfsr.extractLsb' 8 8)

/-- The derivation `WAVE` selects, from the index, `PW` and the stepped noise register (R80). -/
def derive (c : Config) (waveform : Waveform) (index : Nat) (pw : BitVec 8) (lfsr : BitVec 16) : Int :=
  match waveform with
  | .saw => saw c index
  | .triangle => triangle c index
  | .rectangle => rectangle index pw
  | .noise => noiseSample lfsr

/-- The noise register after a sample: stepped in NOISE, left alone otherwise (R86, R88). -/
def lfsrAfter (waveform : Waveform) (lfsr : BitVec 16) : BitVec 16 :=
  match waveform with
  | .saw => lfsr
  | .triangle => lfsr
  | .rectangle => lfsr
  | .noise => lfsrStep lfsr

/-- NEXT_SAMPLE: the phase advances first, the index comes from the new phase, `WAVE` is read once (R80). -/
def execNextSample (s : State) : Host.Outcome State Fault Refusal :=
  let waveform := waveformOf s.wave
  let phase := advancedPhase s.config s.phase s.inc
  let lfsr := lfsrAfter waveform s.lfsr
  let v := derive s.config waveform (tableIndex s.config phase) s.pw lfsr
  .next (answer (pattern8 v) { s with phase := phase, lfsr := lfsr })

end Sys2Proof.Machine
end

