-- ==== Sys2Proof/Machine/Dispatch.lean ====
section
/-! DEFINITION. The meaning of each operation: one arm per row of the opcode table. -/

namespace Sys2Proof.Machine

def exec (i : Instr) (s : State) : Host.Outcome State Fault Refusal :=
  match i with
  | .nextSample => Sys2Proof.Machine.execNextSample s
  | .setWaveform selector => Sys2Proof.Machine.execSetWaveform selector s
  | .getWaveform => Sys2Proof.Machine.execGetWaveform s
  | .setPulseWidth threshold => Sys2Proof.Machine.execSetPulseWidth threshold s
  | .setfInt hertz => Sys2Proof.Machine.execSetfInt hertz s
  | .setfFloat pattern => Sys2Proof.Machine.execSetfFloat pattern s
  | .setfQ24n8 raw => Sys2Proof.Machine.execSetfQ24n8 raw s
  | .setfQ16n16 raw => Sys2Proof.Machine.execSetfQ16n16 raw s
  | .reserved0 => Sys2Proof.Machine.execReserved0 s
  | .reserved5 => Sys2Proof.Machine.execReserved5 s
  | .reserved6to7 _ => Sys2Proof.Machine.execReserved6to7 s
  | .reservedCtoF _ => Sys2Proof.Machine.execReservedCtoF s

end Sys2Proof.Machine
end

