-- ==== Sys2Proof/Machine/Step.lean ====
section
/-! DEFINITION. One step: one port event, at most one operation performed whole (20_memory.md R47). -/

namespace Sys2Proof.Machine

/-- The next request is performed on the state as it stands; an idle instant leaves the registers alone
(30_encoding.md R73), `rst` puts them at their reset values (70_reset_and_hazards.md R150). -/
def step (s : State) : Host.Outcome State Fault Refusal :=
  match nextEvent s with
  | (.idle, t) => .next t
  | (.reset, t) => .next (resetRegisters t)
  | (.command word, t) => exec (decode word) t
  | (.sample, t) => onSamplePort (exec .nextSample t)

/-- The word presented on the command port, so that the very next step performs it (log 11). -/
def State.withFetchWord (s : State) (nbits w : Nat) : State :=
  presentCommand (BitVec.ofNat 36 (w % 2 ^ nbits)) s

end Sys2Proof.Machine
end

