-- ==== Sys2Proof/Safety.lean ====
section
/-! DEFINITION. What claims rest on: the invariant of a reset-born instance (10_state.md R21, R22, R32) and what it is
to stay inside the source's contract (60_exceptions.md R131, R132). -/

namespace Sys2Proof.Machine

/-- `PHASE` and `INC` are `W` bits wide (R21, R22) and the noise register is never zero (R32). -/
abbrev State.Inv (s : State) : Prop :=
  s.phase.toNat < 2 ^ s.config.width ∧ s.inc.toNat < 2 ^ s.config.width ∧ s.lfsr ≠ 0

/-- No violation has been recorded since reset (R132). -/
abbrev State.Clean (s : State) : Prop := s.fault = 0

/-- `n` steps, stopping at the first that does not go on (20_memory.md R47): the host's run of this machine, over its
own types. -/
def run : Nat → State → Host.Outcome State Fault Refusal
  | 0, s => .next s
  | n + 1, s =>
    match step s with
    | .next t => run n t
    | .fault f => .fault f
    | .refused r => .refused r

/-- A binary32 pattern with `1 <= e <= 254` or a subnormal, read as a magnitude, is at least `rate`
(R64, R116), in whole numbers. -/
def magnitudeReaches (rate : Nat) (pattern : Arg) : Prop :=
  let e := pattern.toNat / 2 ^ 23 % 2 ^ 8
  let m := pattern.toNat % 2 ^ 23
  if e = 0 then rate * 2 ^ 149 ≤ m
  else if e < 150 then rate * 2 ^ (150 - e) ≤ 2 ^ 23 + m
  else rate ≤ (2 ^ 23 + m) * 2 ^ (e - 150)

/-- The exact condition under which an operation raises a cause of R131, as that table gives it. -/
def Raises (c : Config) (i : Instr) (v : Violation) : Prop :=
  match i with
  | .nextSample => False
  | .setWaveform selector => v = .waveSel ∧ 4 ≤ selector.toNat
  | .getWaveform => False
  | .setPulseWidth _ => False
  | .setfInt hertz => v = .ovf ∧ c.updateRate ≤ hertz.toNat
  | .setfFloat pattern =>
    -- infinite or not a number, negative and not zero, too large
    v = .ovf ∧
      (0x7F800000 ≤ pattern.toNat % 2 ^ 31 ∨ 2 ^ 31 < pattern.toNat ∨ magnitudeReaches c.updateRate pattern)
  | .setfQ24n8 raw =>
    (v = .rate ∧ c.updateRate ≤ 64) ∨ (v = .ovf ∧ 64 < c.updateRate ∧ c.updateRate * 2 ^ 8 ≤ raw.toNat)
  | .setfQ16n16 raw =>
    (v = .rate ∧ c.updateRate ≤ 64) ∨ (v = .ovf ∧ 64 < c.updateRate ∧ c.updateRate * 2 ^ 16 ≤ raw.toNat)
  | .reserved0 => v = .op
  | .reserved5 => v = .op
  | .reserved6to7 _ => v = .op
  | .reservedCtoF _ => v = .op

/-- The operation keeps the source's contract in an instance with configuration `c`. -/
def InContract (c : Config) (i : Instr) : Prop := ∀ v, ¬ Raises c i v

/-- The operations of the frequency family. -/
def isFrequencyOp : Instr → Bool
  | .setfInt _ => true
  | .setfFloat _ => true
  | .setfQ24n8 _ => true
  | .setfQ16n16 _ => true
  | .nextSample => false
  | .setWaveform _ => false
  | .getWaveform => false
  | .setPulseWidth _ => false
  | .reserved0 => false
  | .reserved5 => false
  | .reserved6to7 _ => false
  | .reservedCtoF _ => false

end Sys2Proof.Machine
end

