-- ==== Sys2Proof/Certificates/Slice0/Obligations.lean ====
section
/-! DEFINITION. The statements for the provers. Each `def Obligations.<Name>` says what the machine does in terms of
the fixed names; the helpers under `Sys2Proof.Spec` write the spec's formulas out over the numbers, apart from the
model's own operations. -/

open Sys2Proof Sys2Proof.Machine

namespace Sys2Proof.Spec

/-! ### Frames -/

/-- What no operation writes: the parameters, the requests still presented, the sample port, the instant count. -/
def OutsideKept (s t : State) : Prop :=
  t.config = s.config ∧ t.inputs = s.inputs ∧ t.sample = s.sample ∧ t.instants = s.instants

/-- The six registers and the parameters agree. -/
def SameRegisters (s t : State) : Prop :=
  t.config = s.config ∧ t.phase = s.phase ∧ t.inc = s.inc ∧ t.wave = s.wave ∧ t.pw = s.pw ∧
    t.lfsr = s.lfsr ∧ t.fault = s.fault

/-- The states agree in everything but `FAULT`. -/
def AgreeButFault (s t : State) : Prop :=
  t.config = s.config ∧ t.phase = s.phase ∧ t.inc = s.inc ∧ t.wave = s.wave ∧ t.pw = s.pw ∧
    t.lfsr = s.lfsr ∧ t.inputs = s.inputs ∧ t.sample = s.sample ∧ t.rsp = s.rsp ∧ t.instants = s.instants

/-! ### Sample generation -/

/-- `(PHASE + INC) mod 2^W` (40_sample_generation.md R81). -/
def nextPhase (s : State) : ℕ := (s.phase.toNat + s.inc.toNat) % 2 ^ s.config.width

/-- The index taken from the advanced phase, `phase'[W-1:F]` (R82). -/
def nextIndex (s : State) : ℕ := nextPhase s / 2 ^ s.config.fracBits

/-- Half the table size, over the integers (R83, R84). -/
def halfTable (c : Config) : ℤ := (c.tableSize : ℤ) / 2

/-- One step of the noise register, over the numbers (R86). -/
def noiseStep (n : ℕ) : ℕ := (n / 2) ^^^ (if n % 2 = 1 then 0xB400 else 0)

/-- What NEXT_SAMPLE does beside its sample and the noise register (R80, R81). -/
def SampleFrame (s t : State) : Prop :=
  t.phase.toNat = nextPhase s ∧ t.inc = s.inc ∧ t.wave = s.wave ∧ t.pw = s.pw ∧ t.fault = s.fault ∧
    OutsideKept s t

/-! ### Frequencies -/

/-- `arg[31]`, `arg[30:23]` and `arg[22:0]` of a binary32 pattern (30_encoding.md R64). -/
def floatSign (p : Arg) : ℕ := p.toNat / 2 ^ 31
def floatExponent (p : Arg) : ℕ := p.toNat / 2 ^ 23 % 2 ^ 8
def floatFraction (p : Arg) : ℕ := p.toNat % 2 ^ 23

/-- The value a finite binary32 pattern denotes (R64). -/
def floatValue (p : Arg) : ℚ :=
  (-1) ^ floatSign p *
    (if floatExponent p = 0 then (floatFraction p : ℚ) * (2 : ℚ) ^ (-149 : ℤ)
     else (2 ^ 23 + floatFraction p : ℚ) * (2 : ℚ) ^ ((floatExponent p : ℤ) - 150))

/-- `INC` and `FAULT` after the conversion and commit of a non-negative frequency: `floor(f * 2^W / R)` when it
fits, which is when `f < R`, else `2^W - 1` with `FAULT.OVF` (42_frequency_conversion.md R110, R111, R116). -/
def Commits (f : ℚ) (s t : State) : Prop :=
  (f < s.config.updateRate →
    (t.inc.toNat : ℤ) = ⌊f * 2 ^ s.config.width / s.config.updateRate⌋ ∧ t.fault = s.fault) ∧
  ((s.config.updateRate : ℚ) ≤ f →
    t.inc.toNat = 2 ^ s.config.width - 1 ∧ t.fault = s.fault ||| 0b0100#4)

/-- What a frequency operation leaves alone, and its response (R111, R121). -/
def FrequencyFrame (s t : State) : Prop :=
  t.phase = s.phase ∧ t.wave = s.wave ∧ t.pw = s.pw ∧ t.lfsr = s.lfsr ∧ t.rsp = some 0x00 ∧ OutsideKept s t

/-- The non-negative frequency an operation's argument denotes (30_encoding.md R62, R63, R64); none for an operation
without one and for a binary32 pattern that is negative and not zero, infinite or not a number. -/
def frequencyOf : Instr → Option ℚ
  | .setfInt hertz => some hertz.toNat
  | .setfFloat pattern =>
    if floatExponent pattern < 255 ∧ 0 ≤ floatValue pattern then some (floatValue pattern) else none
  | .setfQ24n8 raw => some (raw.toNat / 2 ^ 8)
  | .setfQ16n16 raw => some (raw.toNat / 2 ^ 16)
  | _ => none

/-- A frequency operation that leaves the old increment in place: the fixed-point forms with `R <= 64` (R117) and a
pattern that is not a number (R113). -/
def Refused (c : Config) : Instr → Prop
  | .setfQ24n8 _ => c.updateRate ≤ 64
  | .setfQ16n16 _ => c.updateRate ≤ 64
  | .setfFloat pattern => floatExponent pattern = 255 ∧ floatFraction pattern ≠ 0
  | _ => False

/-! ### Words -/

/-- The word `{op, arg}`: the digit of `op`, then the eight digits of `arg` (30_encoding.md R60). -/
def wordOf (op : Opcode) (arg : Arg) : OpWord := BitVec.ofNat 36 (op.toNat * 2 ^ 32 + arg.toNat)

/-- The reserved opcodes (30_encoding.md R69). -/
def ReservedOp (op : Opcode) : Prop :=
  op = 0x0 ∨ op = 0x5 ∨ op = 0x6 ∨ op = 0x7 ∨ op = 0xC ∨ op = 0xD ∨ op = 0xE ∨ op = 0xF

/-- The rows of the opcode table that are reserved (R69). -/
def isReservedRow : Instr → Bool
  | .reserved0 => true
  | .reserved5 => true
  | .reserved6to7 _ => true
  | .reservedCtoF _ => true
  | _ => false

/-- The bit of `FAULT` of each cause, one below its code (60_exceptions.md R131). -/
def causeBit : Violation → ℕ
  | .waveSel => 0
  | .rate => 1
  | .ovf => 2
  | .op => 3

/-! ### Runs -/

/-- What the ports present at an instant, in the order of performance (20_memory.md R51, 60_exceptions.md R136). -/
inductive Presented where
  | reset
  | operation (i : Instr)

def presentedAt (p : PortInput) : List Presented :=
  if p.rst then [.reset]
  else (match p.cmd with
    | some word => [.operation (decode word)]
    | none => []) ++ (if p.tick then [.operation .nextSample] else [])

/-- The steps an instant takes: one for each thing performed, one when there is none. -/
def stepsFor (p : PortInput) : ℕ := max 1 (presentedAt p).length

/-- One presented thing, performed on the registers. -/
def perform (s : State) : Presented → State
  | .reset => resetRegisters s
  | .operation i =>
    match exec i s with
    | .next t => t
    | .fault _ => s
    | .refused _ => s

/-- A sample request and nothing else. -/
def tickOnly : PortInput := { rst := false, tick := true, cmd := none }

end Sys2Proof.Spec

open Sys2Proof.Spec

/-! ### Reset and the ports -/

/-- 70_reset_and_hazards.md section 1, its reset table: an instance built with any configuration starts with these
registers, and the reference instance has the parameters of 00_scope.md R10. The values are the spec's decisions
(92_eei_decisions.md D8, D18, D19); that `State.reset` is the reference profile, and that the ports start empty, is
the model's choice (log 2, 4, 6). -/
def Obligations.InstanceStartsAtResetValues : Prop :=
  (∀ c : Config, (State.ofConfig c).config = c ∧ (State.ofConfig c).phase = 0 ∧ (State.ofConfig c).inc = 0 ∧
    (State.ofConfig c).wave = 0 ∧ (State.ofConfig c).pw = c.pwReset ∧ (State.ofConfig c).lfsr = c.noiseSeed ∧
    (State.ofConfig c).fault = 0) ∧
  State.reset = State.ofConfig Config.reference ∧ Config.reference.tableSize = 256 ∧
  Config.reference.width = 24 ∧ Config.reference.fracBits = 16 ∧ Config.reference.updateRate = 16000 ∧
  Config.reference.noiseSeed = 0xACE1 ∧ Config.reference.pwReset = 0x80

/-- 70_reset_and_hazards.md R150: `rst` puts the six registers at their reset values together, whatever they held,
and what is presented with it is discarded: the next instant's requests come next. That both valid lines are low then
is the model's choice (log 8). -/
def Obligations.RstPutsAllRegistersAtReset : Prop :=
  ∀ (s : State) (p : PortInput) (later : List PortInput), s.inputs = p :: later → p.rst = true →
    ∃ t, step s = .next t ∧ t.phase = 0 ∧ t.inc = 0 ∧ t.wave = 0 ∧ t.pw = s.config.pwReset ∧
      t.lfsr = s.config.noiseSeed ∧ t.fault = 0 ∧ t.config = s.config ∧ t.inputs = later ∧
      t.sample = none ∧ t.rsp = none

/-- 60_exceptions.md section 2, 20_memory.md section 3: reset overrides both ports; between the other two the command
is first. That the coinciding sample request then stands at the head of the presentations, as an entry of its own, is
the model's form of holding it (log 5). -/
def Obligations.SimultaneousRequestsAreOrdered : Prop :=
  (∀ (s : State) (tick : Bool) (cmd : Option OpWord) (later : List PortInput),
    s.inputs = { rst := true, tick := tick, cmd := cmd } :: later →
    ∃ t, step s = .next t ∧
      SameRegisters (State.ofConfig s.config) t ∧ t.inputs = later) ∧
  (∀ (s : State) (word : OpWord) (later : List PortInput),
    s.inputs = { rst := false, tick := true, cmd := some word } :: later →
    ∃ u t, exec (decode word) s = .next u ∧ step s = .next t ∧ SameRegisters u t ∧
      t.inputs = tickOnly :: later)

/-- 20_memory.md section 3: a coinciding command is performed first, the sample request second, on the state the
command leaves; the request is held, not dropped, and answered on the sample port (30_encoding.md section 5). That the
instant takes two steps, and that they come before whatever is presented later, a reset included, is the model's
(log 5). -/
def Obligations.CoincidingSampleIsHeldAndPerformedSecond : Prop :=
  ∀ (s : State) (word : OpWord) (later : List PortInput),
    s.inputs = { rst := false, tick := true, cmd := some word } :: later →
    ∃ t u v, run 2 s = .next v ∧
      exec (decode word) s = .next t ∧ exec .nextSample t = .next u ∧
      SameRegisters u v ∧ v.sample = u.rsp ∧ v.inputs = later

/-- A step runs the decoded operation (20_memory.md R47, 30_encoding.md R73). What step adds around exec is the
passing of the instant, which is the model's choice: both valid lines go low (log 6) and the instant count goes up by
one (log 7). -/
def Obligations.StepPerformsThePresentedWord : Prop :=
  ∀ (s : State) (word : OpWord) (later : List PortInput),
    s.inputs = { rst := false, tick := false, cmd := some word } :: later →
    step s = exec (decode word)
      { s with inputs := later, sample := none, rsp := none, instants := s.instants + 1 }

/-- 30_encoding.md R73: each request on the sample port performs one NEXT_SAMPLE exactly as the word 0x100000000
would, and its response goes out on the sample port. That `rsp_valid` is low afterwards, even where a response stood on
the command port before, is the model's choice (log 6). -/
def Obligations.TickPerformsNextSampleOnItsPort : Prop :=
  ∀ (s : State) (later : List PortInput), s.inputs = tickOnly :: later →
    ∃ t u, step s = .next t ∧ exec (decode 0x100000000) s = .next u ∧ SameRegisters u t ∧
      t.sample = u.rsp ∧ t.rsp = none ∧ t.inputs = later

/-- The word `withFetchWord` presents is the one the very next step performs, and it is the one `decodeTableWord`
reads (log 11, 12). That the valid lines go low (log 6) and the instant count goes up by one (log 7) are the model's
choices too. -/
def Obligations.FetchedWordRunsNext : Prop :=
  ∀ (s : State) (nbits w : ℕ), w < 2 ^ nbits → w < 2 ^ 36 →
    decodeTableWord nbits w = some (decode (BitVec.ofNat 36 w)) ∧
    step (s.withFetchWord nbits w) = exec (decode (BitVec.ofNat 36 w))
      { s with sample := none, rsp := none, instants := s.instants + 1 }

/-- 30_encoding.md R73, 60_exceptions.md R141: with nothing presented, all six registers are held for any number of
instants. -/
def Obligations.IdlePortsHoldEveryRegister : Prop :=
  ∀ (n : ℕ) (s : State), s.inputs = [] →
    ∃ t, run n s = .next t ∧ SameRegisters s t ∧ t.inputs = []

/-! ### Encoding -/

/-- 30_encoding.md R60, R61: the opcode map. -/
def Obligations.OpcodeMapIsTheSpecs : Prop :=
  ∀ arg : Arg,
    decode (wordOf 0x1 arg) = .nextSample ∧ decode (wordOf 0x2 arg) = .setWaveform arg ∧
    decode (wordOf 0x3 arg) = .getWaveform ∧
    decode (wordOf 0x4 arg) = .setPulseWidth (arg.extractLsb' 0 8) ∧
    decode (wordOf 0x8 arg) = .setfInt arg ∧ decode (wordOf 0x9 arg) = .setfFloat arg ∧
    decode (wordOf 0xA arg) = .setfQ24n8 arg ∧ decode (wordOf 0xB arg) = .setfQ16n16 arg ∧
    decode (wordOf 0x0 arg) = .reserved0 ∧ decode (wordOf 0x5 arg) = .reserved5 ∧
    decode (wordOf 0x6 arg) = .reserved6to7 0x6 ∧ decode (wordOf 0x7 arg) = .reserved6to7 0x7 ∧
    decode (wordOf 0xC arg) = .reservedCtoF 0xC ∧ decode (wordOf 0xD arg) = .reservedCtoF 0xD ∧
    decode (wordOf 0xE arg) = .reservedCtoF 0xE ∧ decode (wordOf 0xF arg) = .reservedCtoF 0xF

/-- A few words of the spec's own list (95_test_vectors.md section 5), whole. -/
def Obligations.WordsOfTheSpecDecode : Prop :=
  decode 0x100000000 = .nextSample ∧ decode 0x1FFFFFFFF = .nextSample ∧
  decode 0x200000002 = .setWaveform 2 ∧ decode 0x300000000 = .getWaveform ∧
  decode 0x400000080 = .setPulseWidth 128 ∧ decode 0x8000001B8 = .setfInt 440 ∧
  decode 0x943DC0000 = .setfFloat 0x43DC0000 ∧ decode 0xA0001B800 = .setfQ24n8 0x0001B800 ∧
  decode 0xB01B80000 = .setfQ16n16 0x01B80000 ∧ decode 0x000000000 = .reserved0 ∧
  decode 0x500001234 = .reserved5 ∧ decode 0xC00000000 = .reservedCtoF 0xC ∧
  decode 0xFFFFFFFFF = .reservedCtoF 0xF

/-- Decode and encode agree on every well-formed operation, every operand at every value (30_encoding.md R60 to
R69). -/
def Obligations.DecodeOfEncodeIsTheOperation : Prop :=
  ∀ i : Instr, i.wf = true → decode (encode i) = i

/-- 30_encoding.md R70: the decoder is total, and the masks and matches of the table identify every operation: a
word matches the row of the operation it decodes to, and no other row. -/
def Obligations.EveryWordMatchesExactlyItsRow : Prop :=
  (∀ w : OpWord, (decode w).wf = true ∧ w &&& (decode w).tableMask = (decode w).tableMatch) ∧
  (∀ (w : OpWord) (i : Instr), w &&& i.tableMask = i.tableMatch → i.tableMatch = (decode w).tableMatch) ∧
  (∀ w : OpWord, isReservedRow (decode w) = false →
    (decode w).tableMask = 0xF00000000 ∧ (decode w).tableMatch = BitVec.ofNat 36 (w.toNat / 2 ^ 32) <<< 32)

/-- The canonical word of what a word decodes to is the same operation, keeps the opcode, and differs from the word
only in argument bits (30_encoding.md R60, R67, R68, R69). -/
def Obligations.CanonicalWordIsTheSameOperation : Prop :=
  ∀ w : OpWord, decode (encode (decode w)) = decode w ∧ opField (encode (decode w)) = opField w ∧
    encode (decode w) &&& w = encode (decode w)

/-- 30_encoding.md R68: NEXT_SAMPLE and GET_WAVEFORM ignore all 32 argument bits; the canonical words. -/
def Obligations.IgnoredArgumentBitsDoNotMatter : Prop :=
  (∀ a b : Arg, decode (wordOf 0x1 a) = decode (wordOf 0x1 b) ∧ decode (wordOf 0x3 a) = decode (wordOf 0x3 b)) ∧
  (∀ a : Arg, decode (wordOf 0x1 a) = .nextSample ∧ decode (wordOf 0x3 a) = .getWaveform) ∧
  encode .nextSample = 0x100000000 ∧ encode .getWaveform = 0x300000000

/-! ### Sample generation -/

/-- 40_sample_generation.md R81, R89: every NEXT_SAMPLE, in every state and whatever `WAVE` is, completes and
advances the phase modulo `2^W`, with no flag and no fault; the frame of NEXT_SAMPLE. -/
def Obligations.NextSampleAdvancesThePhase : Prop :=
  ∀ s : State, ∃ t b, exec .nextSample s = .next t ∧ SampleFrame s t ∧ t.rsp = some b

/-- R83, with R82: SAW answers `index - T/2`, exactly; for `T = 256` the byte is the index with bit 7 flipped (this
last clause is an inference of the spec's). -/
def Obligations.SawSampleIsIndexLessHalf : Prop :=
  ∀ s : State, s.wave = 0 → ∃ t b, exec .nextSample s = .next t ∧ t.rsp = some b ∧
    nextIndex s < s.config.tableSize ∧
    b.toInt = (nextIndex s : ℤ) - halfTable s.config ∧
    (s.config.tableSize = 256 → b.toNat = nextIndex s ^^^ 0x80) ∧
    SampleFrame s t ∧ t.lfsr = s.lfsr

/-- R84, with R82: TRIANGLE, exactly, with the upper half beginning at `T/2` (that it begins there is an inference of
the spec's). -/
def Obligations.TriangleSampleRisesThenFalls : Prop :=
  ∀ s : State, s.wave = 1 → ∃ t b, exec .nextSample s = .next t ∧ t.rsp = some b ∧
    nextIndex s < s.config.tableSize ∧
    ((nextIndex s : ℤ) < halfTable s.config →
      b.toInt = 2 * (nextIndex s : ℤ) - halfTable s.config) ∧
    (halfTable s.config ≤ nextIndex s →
      b.toInt = 2 * ((s.config.tableSize : ℤ) - 1 - nextIndex s) - halfTable s.config ∧
      b.toInt = 2 * ((nextIndex s ^^^ (s.config.tableSize - 1) : ℕ) : ℤ) - halfTable s.config) ∧
    SampleFrame s t ∧ t.lfsr = s.lfsr

/-- R85, with R82: RECTANGLE answers +127 when the index exceeds `PW`, else -127, whatever `T` is. -/
def Obligations.RectangleSampleComparesIndexWithPulseWidth : Prop :=
  ∀ s : State, s.wave = 2 → ∃ t b, exec .nextSample s = .next t ∧ t.rsp = some b ∧
    (s.pw.toNat < nextIndex s → b.toInt = 127 ∧ b = 0x7F) ∧
    (nextIndex s ≤ s.pw.toNat → b.toInt = -127 ∧ b = 0x81) ∧
    SampleFrame s t ∧ t.lfsr = s.lfsr

/-- R86, R87: NOISE steps the noise register once and answers the high byte of its new value; the sample depends on
`LFSR` alone, and the phase advances as in the other modes. -/
def Obligations.NoiseSampleIsTheHighByteOfTheSteppedRegister : Prop :=
  (∀ s : State, s.wave = 3 → ∃ t b, exec .nextSample s = .next t ∧ t.rsp = some b ∧
    t.lfsr.toNat = noiseStep s.lfsr.toNat ∧ b.toNat = t.lfsr.toNat / 2 ^ 8 ∧ SampleFrame s t) ∧
  (∀ s u : State, s.wave = 3 → u.wave = 3 → s.lfsr = u.lfsr →
    ∃ t v, exec .nextSample s = .next t ∧ exec .nextSample u = .next v ∧ t.rsp = v.rsp ∧ t.lfsr = v.lfsr)

/-- R88: outside NOISE a NEXT_SAMPLE does not step `LFSR`, no other operation writes it, and only reset reloads the
seed: a step that is neither a reset nor a NEXT_SAMPLE in NOISE leaves it alone. -/
def Obligations.NoiseRegisterIsLeftAloneOutsideNoise : Prop :=
  (∀ (i : Instr) (s : State), ¬ (i = .nextSample ∧ s.wave = 3) →
    ∃ t, exec i s = .next t ∧ t.lfsr = s.lfsr) ∧
  (∀ s : State, s.wave ≠ 3 → (∀ p ∈ s.inputs.head?, p.rst = false) →
    ∃ t, step s = .next t ∧ t.lfsr = s.lfsr) ∧
  (∀ s : State, (∀ p ∈ s.inputs.head?, p.rst = false) →
    ∃ t, step s = .next t ∧ (t.lfsr = s.lfsr ∨ t.lfsr.toNat = noiseStep s.lfsr.toNat))

/-- The sample ranges per waveform (40_sample_generation.md section 4, an inference of the spec's; 10_state.md
section 4). -/
def Obligations.SampleRangesPerWaveform : Prop :=
  ∀ s : State, ∃ t b, exec .nextSample s = .next t ∧ t.rsp = some b ∧
    (s.wave = 0 → -halfTable s.config ≤ b.toInt ∧ b.toInt ≤ halfTable s.config - 1) ∧
    (s.wave = 1 → -halfTable s.config ≤ b.toInt ∧ b.toInt ≤ halfTable s.config - 2) ∧
    (s.wave = 2 → b.toInt = -127 ∨ b.toInt = 127)

/-- One table step per call (section 4, an inference of the spec's): each SAW sample is the one before plus one, but
for the one drop from `T/2 - 1` back to `-T/2`. -/
def Obligations.SawRampHasOneDropPerPeriod : Prop :=
  ∀ s : State, s.wave = 0 → s.inc.toNat = 2 ^ s.config.fracBits →
    ∃ t u a b, exec .nextSample s = .next t ∧ exec .nextSample t = .next u ∧ t.rsp = some a ∧
      u.rsp = some b ∧
      (a.toInt = halfTable s.config - 1 → b.toInt = -halfTable s.config) ∧
      (a.toInt ≠ halfTable s.config - 1 → b.toInt = a.toInt + 1)

/-- The triangle (section 4, an inference of the spec's): a palindrome that rises by 2 over the lower half, holds
for one step, and falls by 2 over the upper half. -/
def Obligations.TriangleIsAPalindrome : Prop :=
  ∀ (c : Config) (i : ℕ), i < c.tableSize →
    triangle c i = triangle c (c.tableSize - 1 - i) ∧
    (i + 1 < c.tableSize / 2 → triangle c (i + 1) = triangle c i + 2) ∧
    (i + 1 = c.tableSize / 2 → triangle c (i + 1) = triangle c i ∧ triangle c i = halfTable c - 2) ∧
    (c.tableSize / 2 ≤ i → i + 1 < c.tableSize → triangle c (i + 1) = triangle c i - 2) ∧
    triangle c 0 = -halfTable c

/-- The rectangle's duty (section 4, an inference of the spec's): `T - 1 - P` of the `T` indices are high, none when
`P > T - 1`. -/
def Obligations.RectangleDutyIsTMinusOneMinusP : Prop :=
  ∀ (c : Config) (p : BitVec 8),
    ((Finset.range c.tableSize).filter fun i => rectangle i p = 127).card = c.tableSize - 1 - p.toNat

/-- Zero increment (section 4, an inference of the spec's): the phase stands still and the sample repeats, except in
NOISE, where the register still moves. -/
def Obligations.ZeroIncrementRepeatsTheSample : Prop :=
  (∀ s : State, s.Inv → s.inc = 0 → s.wave ≠ 3 →
    ∃ t, exec .nextSample s = .next t ∧ t.phase = s.phase ∧ exec .nextSample t = .next t) ∧
  (∀ s : State, s.Inv → s.inc = 0 → s.wave = 3 →
    ∃ t, exec .nextSample s = .next t ∧ t.phase = s.phase ∧ t.lfsr ≠ s.lfsr)

/-- The noise step loses nothing and dies nowhere (section 4, an inference of the spec's): it is invertible and
sends only 0 to 0. -/
def Obligations.NoiseStepIsInvertible : Prop :=
  Function.Bijective lfsrStep ∧ ∀ s, lfsrStep s = 0 ↔ s = 0

/-- The period of the noise register is 65535 from every non-zero state (section 4, an inference of the spec's). -/
def Obligations.NoisePeriodIs65535FromEveryNonzeroState : Prop :=
  ∀ s : BitVec 16, s ≠ 0 → Function.minimalPeriod lfsrStep s = 65535

/-- After `n` sample requests the phase has advanced by `n` increments modulo `2^W` (40_sample_generation.md
section 2). -/
def Obligations.SamplesAdvanceThePhaseByMultiplesOfTheIncrement : Prop :=
  ∀ (n : ℕ) (s : State), s.Inv → s.inputs = List.replicate n tickOnly →
    ∃ t, run n s = .next t ∧
      t.phase.toNat = (s.phase.toNat + n * s.inc.toNat) % 2 ^ s.config.width ∧ t.inc = s.inc ∧ t.inputs = []

/-- 70_reset_and_hazards.md section 1 (an inference of the spec's): straight after reset every sample is `-T/2`, for
as long as nothing but samples is asked for. -/
def Obligations.SamplesAfterResetAreConstant : Prop :=
  ∀ (c : Config) (n : ℕ),
    ∃ t b, run (n + 1)
        { State.ofConfig c with inputs := List.replicate (n + 1) tickOnly } = .next t ∧
      t.sample = some b ∧ b.toInt = -halfTable c ∧ t.phase = 0

/-! ### Configuration operations -/

/-- 41_configuration.md R100: a recognized selector is stored and nothing else of the data registers changes. -/
def Obligations.SetWaveformStoresARecognizedSelector : Prop :=
  ∀ (s : State) (sel : Arg), sel.toNat ≤ 3 →
    ∃ t, exec (.setWaveform sel) s = .next t ∧ t.wave.toNat = sel.toNat ∧ t.phase = s.phase ∧
      t.inc = s.inc ∧ t.pw = s.pw ∧ t.lfsr = s.lfsr ∧ t.fault = s.fault ∧ t.rsp = some 0x00 ∧
      OutsideKept s t

/-- R101: an unrecognized selector is ignored and recorded. -/
def Obligations.SetWaveformIgnoresAndRecordsAnUnrecognizedSelector : Prop :=
  ∀ (s : State) (sel : Arg), 4 ≤ sel.toNat →
    ∃ t, exec (.setWaveform sel) s = .next t ∧ t.fault = s.fault ||| 0b0001#4 ∧ t.wave = s.wave ∧
      t.phase = s.phase ∧ t.inc = s.inc ∧ t.pw = s.pw ∧ t.lfsr = s.lfsr ∧ t.rsp = some 0x00 ∧
      OutsideKept s t

/-- R102: GET_WAVEFORM answers `zext_8(WAVE)`, writes nothing, sets no flag; and what `WAVE` holds is what the last
valid SET_WAVEFORM wrote, or 0 since reset: GET_WAVEFORM right after either shows it, and no other operation
writes it. -/
def Obligations.GetWaveformAnswersTheLastSelection : Prop :=
  (∀ s : State, ∃ t b, exec .getWaveform s = .next t ∧ t.rsp = some b ∧ b.toNat = s.wave.toNat ∧
    SameRegisters s t ∧ OutsideKept s t) ∧
  (∀ (i : Instr) (s : State), (∀ sel : Arg, i = .setWaveform sel → 4 ≤ sel.toNat) →
    ∃ t, exec i s = .next t ∧ t.wave = s.wave) ∧
  (∀ (s : State) (sel : Arg), sel.toNat ≤ 3 → ∃ t u b, exec (.setWaveform sel) s = .next t ∧
    exec .getWaveform t = .next u ∧ u.rsp = some b ∧ b.toNat = sel.toNat) ∧
  (∀ s : State, ∃ t, exec .getWaveform (resetRegisters s) = .next t ∧ t.rsp = some 0x00)

/-- R103, with 30_encoding.md R67: SET_PULSE_WIDTH stores `arg[7:0]` whatever the rest of `arg` is. -/
def Obligations.SetPulseWidthStoresTheLowByte : Prop :=
  ∀ (s : State) (arg : Arg),
    ∃ t, exec (decode (wordOf 0x4 arg)) s = .next t ∧
      exec (.setPulseWidth (arg.extractLsb' 0 8)) s = .next t ∧
      t.pw.toNat = arg.toNat % 2 ^ 8 ∧ t.phase = s.phase ∧
      t.inc = s.inc ∧ t.wave = s.wave ∧ t.lfsr = s.lfsr ∧ t.fault = s.fault ∧ t.rsp = some 0x00 ∧
      OutsideKept s t

/-- 20_memory.md section 3, 41_configuration.md: a SET_WAVEFORM followed at once by a sample request gives a sample
of the new waveform, on the very next call. What that sample is, waveform by waveform, is 40_sample_generation.md
sections 2 and 3, and that TRIANGLE's upper half begins at `T/2` is an inference of the spec's. -/
def Obligations.NewWaveformShowsInTheVeryNextSample : Prop :=
  ∀ (s : State) (sel : Arg) (later : List PortInput), sel.toNat ≤ 3 →
    s.inputs = { rst := false, tick := false, cmd := some (encode (.setWaveform sel)) } :: tickOnly :: later →
    ∃ t b, run 2 s = .next t ∧ t.sample = some b ∧
      (sel.toNat = 0 → b.toInt = (nextIndex s : ℤ) - halfTable s.config) ∧
      (sel.toNat = 1 → (nextIndex s : ℤ) < halfTable s.config →
        b.toInt = 2 * (nextIndex s : ℤ) - halfTable s.config) ∧
      (sel.toNat = 1 → halfTable s.config ≤ nextIndex s →
        b.toInt = 2 * ((s.config.tableSize : ℤ) - 1 - nextIndex s) - halfTable s.config) ∧
      (sel.toNat = 2 → s.pw.toNat < nextIndex s → b.toInt = 127) ∧
      (sel.toNat = 2 → nextIndex s ≤ s.pw.toNat → b.toInt = -127) ∧
      (sel.toNat = 3 → t.lfsr.toNat = noiseStep s.lfsr.toNat ∧ b.toNat = t.lfsr.toNat / 2 ^ 8) ∧
      (sel.toNat ≠ 3 → t.lfsr = s.lfsr)

/-! ### Frequency operations -/

/-- 42_frequency_conversion.md R112: SETF_INT, for every `R`. -/
def Obligations.SetfIntCommitsTheExactIncrement : Prop :=
  ∀ (s : State) (hertz : Arg),
    ∃ t, exec (.setfInt hertz) s = .next t ∧ Commits (hertz.toNat : ℚ) s t ∧ FrequencyFrame s t

/-- R113, R122: SETF_FLOAT, by the class of the pattern. -/
def Obligations.SetfFloatActsByTheClassOfThePattern : Prop :=
  ∀ (s : State) (p : Arg),
    ∃ t, exec (.setfFloat p) s = .next t ∧ FrequencyFrame s t ∧
      -- zero of either sign, and positive finite
      (floatExponent p < 255 → 0 ≤ floatValue p → Commits (floatValue p) s t) ∧
      -- negative finite, not zero
      (floatExponent p < 255 → floatValue p < 0 → t.inc = 0 ∧ t.fault = s.fault ||| 0b0100#4) ∧
      -- the two infinities
      (floatExponent p = 255 → floatFraction p = 0 → floatSign p = 0 →
        t.inc.toNat = 2 ^ s.config.width - 1 ∧ t.fault = s.fault ||| 0b0100#4) ∧
      (floatExponent p = 255 → floatFraction p = 0 → floatSign p = 1 →
        t.inc = 0 ∧ t.fault = s.fault ||| 0b0100#4) ∧
      -- not a number
      (floatExponent p = 255 → floatFraction p ≠ 0 → t.inc = s.inc ∧ t.fault = s.fault ||| 0b0100#4)

/-- R114: SETF_Q24N8. -/
def Obligations.SetfQ24n8CommitsTheExactIncrement : Prop :=
  ∀ (s : State) (raw : Arg),
    ∃ t, exec (.setfQ24n8 raw) s = .next t ∧ FrequencyFrame s t ∧
      (64 < s.config.updateRate → Commits ((raw.toNat : ℚ) / 2 ^ 8) s t) ∧
      (s.config.updateRate ≤ 64 → t.inc = s.inc ∧ t.fault = s.fault ||| 0b0010#4)

/-- R115: SETF_Q16N16. -/
def Obligations.SetfQ16n16CommitsTheExactIncrement : Prop :=
  ∀ (s : State) (raw : Arg),
    ∃ t, exec (.setfQ16n16 raw) s = .next t ∧ FrequencyFrame s t ∧
      (64 < s.config.updateRate → Commits ((raw.toNat : ℚ) / 2 ^ 16) s t) ∧
      (s.config.updateRate ≤ 64 → t.inc = s.inc ∧ t.fault = s.fault ||| 0b0010#4)

/-- R117: in an instance with `R <= 64` every fixed-point frequency operation is ignored and sets `FAULT.RATE`
alone; `R = 65` meets the constraint; SETF_INT and SETF_FLOAT carry none: they act the same whatever the bit. -/
def Obligations.RateFloorRefusesFixedPointFrequencies : Prop :=
  ∀ (s : State) (a : Arg),
    (s.config.updateRate ≤ 64 →
      ∃ t u, exec (.setfQ24n8 a) s = .next t ∧ exec (.setfQ16n16 a) s = .next u ∧ t.inc = s.inc ∧
        u.inc = s.inc ∧ t.fault = s.fault ||| 0b0010#4 ∧ u.fault = s.fault ||| 0b0010#4) ∧
    (65 ≤ s.config.updateRate →
      ∃ t u, exec (.setfQ24n8 a) s = .next t ∧ exec (.setfQ16n16 a) s = .next u ∧
        t.fault.getLsbD 1 = s.fault.getLsbD 1 ∧ u.fault.getLsbD 1 = s.fault.getLsbD 1) ∧
    (∃ t u, exec (.setfInt a) s = .next t ∧ exec (.setfFloat a) s = .next u ∧
      t.fault.getLsbD 1 = s.fault.getLsbD 1 ∧ u.fault.getLsbD 1 = s.fault.getLsbD 1)

/-- R119: frequency 0 gives `INC = 0` with no fault in every form, and so does every positive frequency below
`R / 2^W`. -/
def Obligations.ZeroFrequencyGivesZeroIncrement : Prop :=
  (∀ s : State, ∃ t u v, exec (.setfInt 0) s = .next t ∧ exec (.setfFloat 0x00000000) s = .next u ∧
    exec (.setfFloat 0x80000000) s = .next v ∧ t.inc = 0 ∧ u.inc = 0 ∧ v.inc = 0 ∧ t.fault = s.fault ∧
    u.fault = s.fault ∧ v.fault = s.fault) ∧
  (∀ s : State, 64 < s.config.updateRate →
    ∃ t u, exec (.setfQ24n8 0) s = .next t ∧ exec (.setfQ16n16 0) s = .next u ∧ t.inc = 0 ∧ u.inc = 0 ∧
      t.fault = s.fault ∧ u.fault = s.fault) ∧
  (∀ (s : State) (i : Instr) (f : ℚ), ¬ Refused s.config i → frequencyOf i = some f →
    f < (s.config.updateRate : ℚ) / 2 ^ s.config.width →
    ∃ t, exec i s = .next t ∧ t.inc = 0 ∧ t.fault = s.fault)

/-- The four entry points agree (42_frequency_conversion.md section 3, an inference of the spec's): arguments that
denote the same frequency, in whatever forms the update rate does not refuse, leave the identical state. -/
def Obligations.EntryPointsAgreeOnEqualFrequencies : Prop :=
  ∀ (s : State) (i j : Instr) (f : ℚ), ¬ Refused s.config i → ¬ Refused s.config j →
    frequencyOf i = some f → frequencyOf j = some f →
    ∃ t, exec i s = .next t ∧ exec j s = .next t ∧ Commits f s t ∧ FrequencyFrame s t

/-- R121: no frequency operation reads or writes `PHASE`, nor reads `INC`: the new value depends on the parameters
and the argument alone, except that a refused operation leaves the old value in place. -/
def Obligations.FrequencyOperationsDoNotReadTheRegisters : Prop :=
  ∀ (i : Instr) (s u : State), isFrequencyOp i = true → s.config = u.config →
    ∃ t v, exec i s = .next t ∧ exec i u = .next v ∧ t.phase = s.phase ∧ v.phase = u.phase ∧
      (¬ Refused s.config i → t.inc = v.inc) ∧
      (Refused s.config i → t.inc = s.inc ∧ v.inc = u.inc)

/-! ### Violations -/

/-- 60_exceptions.md R130: every operation completes, in every state, with every argument. -/
def Obligations.EveryOperationCompletes : Prop :=
  (∀ s : State, ∃ t, step s = .next t) ∧
  (∀ (w : OpWord) (s : State), ∃ t, exec (decode w) s = .next t) ∧
  (∀ (i : Instr) (s : State), ∃ t, exec i s = .next t)

/-- 60_exceptions.md section 1, its table of causes: after an operation a bit of `FAULT` is set exactly when it was
set before or the operation meets the exact condition of that bit's cause. -/
def Obligations.FaultBitsAreSetExactlyOnTheirConditions : Prop :=
  ∀ (i : Instr) (s : State), ∃ t, exec i s = .next t ∧
    ∀ v : Violation, t.fault.getLsbD (causeBit v) = true ↔
      s.fault.getLsbD (causeBit v) = true ∨ Raises s.config i v

/-- R137: no operation clears `FAULT`, only reset does; an operation that raises a cause, under the exact condition of
R131's table, sets that cause's flag and no other, and one that raises none leaves `FAULT` as it is. -/
def Obligations.FaultBitsStickUntilReset : Prop :=
  (∀ (i : Instr) (s : State), ∃ t, exec i s = .next t ∧
    (∀ v : Violation, Raises s.config i v → t.fault = s.fault ||| (1#4 <<< causeBit v)) ∧
    (InContract s.config i → t.fault = s.fault)) ∧
  (∀ s : State, (∀ p ∈ s.inputs.head?, p.rst = false) →
    ∃ t, step s = .next t ∧ s.fault ||| t.fault = t.fault) ∧
  (∀ (s : State) (p : PortInput) (later : List PortInput), s.inputs = p :: later → p.rst = true →
    ∃ t, step s = .next t ∧ t.fault = 0)

/-- R134: decoding comes first, a reserved `op` raises cause 4 whatever `arg` holds and a valid one never does; the
rate check comes before the argument; at most one cause is recorded. -/
def Obligations.ViolationsHaveOnePriority : Prop :=
  (∀ (s : State) (op : Opcode) (arg : Arg), ReservedOp op →
    ∃ t, exec (decode (wordOf op arg)) s = .next t ∧ t.fault = s.fault ||| 0b1000#4) ∧
  (∀ (s : State) (op : Opcode) (arg : Arg), ¬ ReservedOp op →
    ∃ t, exec (decode (wordOf op arg)) s = .next t ∧ t.fault.getLsbD 3 = s.fault.getLsbD 3) ∧
  (∀ (s : State) (a : Arg), s.config.updateRate ≤ 64 →
    ∃ t u, exec (.setfQ24n8 a) s = .next t ∧ exec (.setfQ16n16 a) s = .next u ∧
      t.fault = s.fault ||| 0b0010#4 ∧ u.fault = s.fault ||| 0b0010#4 ∧ t.inc = s.inc ∧ u.inc = s.inc) ∧
  (∀ (c : Config) (i : Instr) (v w : Violation), Raises c i v → Raises c i w → v = w)

/-- 30_encoding.md R69: a reserved opcode sets `FAULT.OP`, changes no other register and answers 0x00. -/
def Obligations.ReservedOpcodesSetTheFlagAndNothingElse : Prop :=
  (∀ (s : State) (op : Opcode) (arg : Arg), ReservedOp op →
    exec (decode (wordOf op arg)) s = .next { s with fault := s.fault ||| 0b1000#4, rsp := some 0x00 }) ∧
  (∀ (s : State) (op : Opcode) (i : Instr),
    i = .reserved0 ∨ i = .reserved5 ∨ i = .reserved6to7 op ∨ i = .reservedCtoF op →
    exec i s = .next { s with fault := s.fault ||| 0b1000#4, rsp := some 0x00 })

/-- 60_exceptions.md section 1, 10_state.md section 2: `FAULT` never influences a sample or any other register: two
machines that differ in `FAULT` alone differ in `FAULT` alone after any number of steps. -/
def Obligations.FaultNeverInfluencesAnythingElse : Prop :=
  ∀ (n : ℕ) (s u : State), AgreeButFault s u →
    ∃ t v, run n s = .next t ∧ run n u = .next v ∧
      AgreeButFault t v

/-! ### The whole machine -/

/-- 10_state.md section 1, its register table: which operations write which register. -/
def Obligations.OnlyTheListedOperationsWriteEachRegister : Prop :=
  ∀ (i : Instr) (s : State), ∃ t, exec i s = .next t ∧ OutsideKept s t ∧
    (t.phase = s.phase ∨ i = .nextSample) ∧
    (t.inc = s.inc ∨ isFrequencyOp i = true) ∧
    (t.wave = s.wave ∨ ∃ sel, i = .setWaveform sel) ∧
    (t.pw = s.pw ∨ ∃ p, i = .setPulseWidth p) ∧
    (t.lfsr = s.lfsr ∨ (i = .nextSample ∧ s.wave = 3)) ∧
    (t.fault = s.fault ∨ (i ≠ .nextSample ∧ i ≠ .getWaveform ∧ ∀ p, i ≠ .setPulseWidth p))

/-- 10_state.md section 4: the increment is derived from the last frequency operation alone: a step that performs
none and is no reset leaves it as it is. -/
def Obligations.IncrementChangesOnlyByFrequencyOperationOrReset : Prop :=
  ∀ s : State, (∀ p ∈ s.inputs.head?, p.rst = false ∧
      ∀ w ∈ p.cmd, isFrequencyOp (decode w) = false) →
    ∃ t, step s = .next t ∧ t.inc = s.inc

/-- 00_scope.md section 3: the parameters are fixed when an instance is built; no step of any run writes them. -/
def Obligations.ParametersNeverChange : Prop :=
  ∀ (n : ℕ) (s : State), ∃ t, run n s = .next t ∧ t.config = s.config

/-- 20_memory.md section 2 (an inference of the spec's): every operation but NEXT_SAMPLE is idempotent: presented
twice in a row it leaves the state it leaves when presented once. -/
def Obligations.EveryOperationButNextSampleIsIdempotent : Prop :=
  ∀ (i : Instr) (s : State), i ≠ .nextSample → ∃ t, exec i s = .next t ∧ exec i t = .next t

/-- 10_state.md R21, R22, R32: the invariant holds of every reset-born instance. -/
def Obligations.ResetBornInstancesMeetTheInvariant : Prop :=
  ∀ c : Config, (State.ofConfig c).Inv ∧ (State.ofConfig c).Clean

/-- 10_state.md section 4: from every state that meets the invariant, every step leads to one that does: `PHASE` and
`INC` stay `W` bits wide and the noise register stays non-zero. -/
def Obligations.StepKeepsTheInvariant : Prop :=
  ∀ s t : State, s.Inv → step s = .next t → t.Inv

/-- 20_memory.md section 3: operations are atomic and totally ordered, and every one presented is performed: the run
of what is presented ends with nothing pending, and the registers it leaves are the fold of the operations, in the
order presented, over the state it began with; any list of presentations, that is any interleaving of the agents. The
list is the model's (log 4), and so is the count of steps, `stepsFor`: two for a coincidence (log 5). -/
def Obligations.RunIsTheFoldOfThePresentedOperations : Prop :=
  ∀ s : State, ∃ t, run (s.inputs.map stepsFor).sum s = .next t ∧ t.inputs = [] ∧
    SameRegisters ((s.inputs.flatMap presentedAt).foldl perform s) t
end

