-- ==== Sys2Proof/Laws/Config.lean ====
section
/-! SUPPORT. The ranges of 00_scope.md R5 to R9 as separate facts, and what they give about `T` and `W`. -/

namespace Sys2Proof

/-- The one place the range check is taken apart. -/
theorem Config.ranges (c : Config) :
    1 ≤ c.indexBits ∧ c.indexBits ≤ 8 ∧ c.indexBits + c.fracBits ≤ 32 ∧
      1 ≤ c.updateRate ∧ c.updateRate < 2 ^ 32 ∧ c.noiseSeed ≠ 0 := by
  have h := c.inRange
  simp only [parametersInRange, Bool.and_eq_true, decide_eq_true_eq, bne_iff_ne] at h
  tauto

theorem Config.width_le (c : Config) : c.width ≤ 32 := c.ranges.2.2.1

theorem Config.updateRate_pos (c : Config) : 0 < c.updateRate := c.ranges.2.2.2.1

theorem Config.noiseSeed_ne_zero (c : Config) : c.noiseSeed ≠ 0 := c.ranges.2.2.2.2.2

/-- `T * 2^F = 2^W` (42_frequency_conversion.md, its opening). -/
theorem Config.tableSize_mul (c : Config) : c.tableSize * 2 ^ c.fracBits = 2 ^ c.width := by
  rw [tableSize, width, pow_add]

theorem Config.tableSize_pos (c : Config) : 0 < c.tableSize := Nat.two_pow_pos _

/-- `T` is even, with `T/2` exact (R5). -/
theorem Config.tableSize_half (c : Config) : 2 * (c.tableSize / 2) = c.tableSize := by
  obtain ⟨k, hk⟩ : ∃ k, c.indexBits = k + 1 := ⟨c.indexBits - 1, by have := c.ranges.1; omega⟩
  simp [tableSize, hk, pow_succ, Nat.mul_comm]

/-- `2 <= T <= 256` (R5). -/
theorem Config.tableSize_bounds (c : Config) : 2 ≤ c.tableSize ∧ c.tableSize ≤ 256 :=
  ⟨by simpa [tableSize] using Nat.pow_le_pow_right (n := 2) (by decide) c.ranges.1,
   by simpa [tableSize] using Nat.pow_le_pow_right (n := 2) (by decide) c.ranges.2.1⟩

/-- `2^W <= 2^32`: every value of a register fits its container (R6, log 3). -/
theorem Config.two_pow_width_le (c : Config) : 2 ^ c.width ≤ 2 ^ 32 :=
  Nat.pow_le_pow_right (by decide) c.width_le

end Sys2Proof
end

