-- ==== Sys2Proof/Laws/Decode.lean ====
section
/-! SUPPORT. The two fields of an operation word (30_encoding.md R60), each read back from the word built of them. -/

namespace Sys2Proof

@[simp] theorem opField_opWord (op : Opcode) (arg : Arg) : opField (opWord op arg) = op := by
  simp only [opField, opWord]
  ext i hi
  simp only [BitVec.getElem_extractLsb', BitVec.getLsbD_append]
  simp [BitVec.getLsbD_eq_getElem hi]

@[simp] theorem argField_opWord (op : Opcode) (arg : Arg) : argField (opWord op arg) = arg := by
  simp only [argField, opWord]
  ext i hi
  simp only [BitVec.getElem_extractLsb', BitVec.getLsbD_append]
  simp [hi]

/-- A word is its two fields. -/
theorem opWord_fields (w : OpWord) : opWord (opField w) (argField w) = w := by
  apply BitVec.eq_of_getLsbD_eq
  intro i hi
  simp only [opWord, opField, argField, BitVec.getLsbD_append, BitVec.getLsbD_extractLsb']
  by_cases h : i < 32
  · simp [h]
  · simp [h, show i - 32 < 4 by omega, show 32 + (i - 32) = i by omega]

end Sys2Proof
end

