-- ==== Sys2Proof/Laws/State.lean ====
section
/-! SUPPORT. One lemma per field of `State` per shared update, so that no proof unfolds a record update. -/

namespace Sys2Proof.Machine

/-! ### answer -/

@[simp] theorem answer_config (v : Byte) (s : State) : (answer v s).config = s.config := rfl
@[simp] theorem answer_phase (v : Byte) (s : State) : (answer v s).phase = s.phase := rfl
@[simp] theorem answer_inc (v : Byte) (s : State) : (answer v s).inc = s.inc := rfl
@[simp] theorem answer_wave (v : Byte) (s : State) : (answer v s).wave = s.wave := rfl
@[simp] theorem answer_pw (v : Byte) (s : State) : (answer v s).pw = s.pw := rfl
@[simp] theorem answer_lfsr (v : Byte) (s : State) : (answer v s).lfsr = s.lfsr := rfl
@[simp] theorem answer_fault (v : Byte) (s : State) : (answer v s).fault = s.fault := rfl
@[simp] theorem answer_inputs (v : Byte) (s : State) : (answer v s).inputs = s.inputs := rfl
@[simp] theorem answer_sample (v : Byte) (s : State) : (answer v s).sample = s.sample := rfl
@[simp] theorem answer_rsp (v : Byte) (s : State) : (answer v s).rsp = some v := rfl
@[simp] theorem answer_instants (v : Byte) (s : State) : (answer v s).instants = s.instants := rfl

/-! ### setFault -/

@[simp] theorem setFault_config (v : Violation) (s : State) : (setFault v s).config = s.config := rfl
@[simp] theorem setFault_phase (v : Violation) (s : State) : (setFault v s).phase = s.phase := rfl
@[simp] theorem setFault_inc (v : Violation) (s : State) : (setFault v s).inc = s.inc := rfl
@[simp] theorem setFault_wave (v : Violation) (s : State) : (setFault v s).wave = s.wave := rfl
@[simp] theorem setFault_pw (v : Violation) (s : State) : (setFault v s).pw = s.pw := rfl
@[simp] theorem setFault_lfsr (v : Violation) (s : State) : (setFault v s).lfsr = s.lfsr := rfl
@[simp] theorem setFault_fault (v : Violation) (s : State) : (setFault v s).fault = faultWith v s.fault := rfl
@[simp] theorem setFault_inputs (v : Violation) (s : State) : (setFault v s).inputs = s.inputs := rfl
@[simp] theorem setFault_sample (v : Violation) (s : State) : (setFault v s).sample = s.sample := rfl
@[simp] theorem setFault_rsp (v : Violation) (s : State) : (setFault v s).rsp = s.rsp := rfl
@[simp] theorem setFault_instants (v : Violation) (s : State) : (setFault v s).instants = s.instants := rfl

/-! ### violate -/

@[simp] theorem violate_config (v : Violation) (s : State) : (violate v s).config = s.config := rfl
@[simp] theorem violate_phase (v : Violation) (s : State) : (violate v s).phase = s.phase := rfl
@[simp] theorem violate_inc (v : Violation) (s : State) : (violate v s).inc = s.inc := rfl
@[simp] theorem violate_wave (v : Violation) (s : State) : (violate v s).wave = s.wave := rfl
@[simp] theorem violate_pw (v : Violation) (s : State) : (violate v s).pw = s.pw := rfl
@[simp] theorem violate_lfsr (v : Violation) (s : State) : (violate v s).lfsr = s.lfsr := rfl
@[simp] theorem violate_fault (v : Violation) (s : State) : (violate v s).fault = faultWith v s.fault := rfl
@[simp] theorem violate_inputs (v : Violation) (s : State) : (violate v s).inputs = s.inputs := rfl
@[simp] theorem violate_sample (v : Violation) (s : State) : (violate v s).sample = s.sample := rfl
@[simp] theorem violate_rsp (v : Violation) (s : State) : (violate v s).rsp = some 0x00 := rfl
@[simp] theorem violate_instants (v : Violation) (s : State) : (violate v s).instants = s.instants := rfl

/-! ### writeInc -/

@[simp] theorem writeInc_config (v : Accum) (s : State) : (writeInc v s).config = s.config := rfl
@[simp] theorem writeInc_phase (v : Accum) (s : State) : (writeInc v s).phase = s.phase := rfl
@[simp] theorem writeInc_inc (v : Accum) (s : State) : (writeInc v s).inc = v := rfl
@[simp] theorem writeInc_wave (v : Accum) (s : State) : (writeInc v s).wave = s.wave := rfl
@[simp] theorem writeInc_pw (v : Accum) (s : State) : (writeInc v s).pw = s.pw := rfl
@[simp] theorem writeInc_lfsr (v : Accum) (s : State) : (writeInc v s).lfsr = s.lfsr := rfl
@[simp] theorem writeInc_fault (v : Accum) (s : State) : (writeInc v s).fault = s.fault := rfl
@[simp] theorem writeInc_inputs (v : Accum) (s : State) : (writeInc v s).inputs = s.inputs := rfl
@[simp] theorem writeInc_sample (v : Accum) (s : State) : (writeInc v s).sample = s.sample := rfl
@[simp] theorem writeInc_rsp (v : Accum) (s : State) : (writeInc v s).rsp = s.rsp := rfl
@[simp] theorem writeInc_instants (v : Accum) (s : State) : (writeInc v s).instants = s.instants := rfl

/-! ### resetRegisters -/

@[simp] theorem resetRegisters_config (s : State) : (resetRegisters s).config = s.config := rfl
@[simp] theorem resetRegisters_phase (s : State) : (resetRegisters s).phase = 0 := rfl
@[simp] theorem resetRegisters_inc (s : State) : (resetRegisters s).inc = 0 := rfl
@[simp] theorem resetRegisters_wave (s : State) : (resetRegisters s).wave = 0 := rfl
@[simp] theorem resetRegisters_pw (s : State) : (resetRegisters s).pw = s.config.pwReset := rfl
@[simp] theorem resetRegisters_lfsr (s : State) : (resetRegisters s).lfsr = s.config.noiseSeed := rfl
@[simp] theorem resetRegisters_fault (s : State) : (resetRegisters s).fault = 0 := rfl
@[simp] theorem resetRegisters_inputs (s : State) : (resetRegisters s).inputs = s.inputs := rfl
@[simp] theorem resetRegisters_sample (s : State) : (resetRegisters s).sample = s.sample := rfl
@[simp] theorem resetRegisters_rsp (s : State) : (resetRegisters s).rsp = s.rsp := rfl
@[simp] theorem resetRegisters_instants (s : State) : (resetRegisters s).instants = s.instants := rfl

/-! ### beginInstant -/

@[simp] theorem beginInstant_config (l : List PortInput) (s : State) : (beginInstant l s).config = s.config := rfl
@[simp] theorem beginInstant_phase (l : List PortInput) (s : State) : (beginInstant l s).phase = s.phase := rfl
@[simp] theorem beginInstant_inc (l : List PortInput) (s : State) : (beginInstant l s).inc = s.inc := rfl
@[simp] theorem beginInstant_wave (l : List PortInput) (s : State) : (beginInstant l s).wave = s.wave := rfl
@[simp] theorem beginInstant_pw (l : List PortInput) (s : State) : (beginInstant l s).pw = s.pw := rfl
@[simp] theorem beginInstant_lfsr (l : List PortInput) (s : State) : (beginInstant l s).lfsr = s.lfsr := rfl
@[simp] theorem beginInstant_fault (l : List PortInput) (s : State) : (beginInstant l s).fault = s.fault := rfl
@[simp] theorem beginInstant_inputs (l : List PortInput) (s : State) : (beginInstant l s).inputs = l := rfl
@[simp] theorem beginInstant_sample (l : List PortInput) (s : State) : (beginInstant l s).sample = none := rfl
@[simp] theorem beginInstant_rsp (l : List PortInput) (s : State) : (beginInstant l s).rsp = none := rfl
@[simp] theorem beginInstant_instants (l : List PortInput) (s : State) : (beginInstant l s).instants = s.instants + 1 := rfl

/-! ### answerOnSamplePort -/

@[simp] theorem answerOnSamplePort_config (s : State) : (answerOnSamplePort s).config = s.config := rfl
@[simp] theorem answerOnSamplePort_phase (s : State) : (answerOnSamplePort s).phase = s.phase := rfl
@[simp] theorem answerOnSamplePort_inc (s : State) : (answerOnSamplePort s).inc = s.inc := rfl
@[simp] theorem answerOnSamplePort_wave (s : State) : (answerOnSamplePort s).wave = s.wave := rfl
@[simp] theorem answerOnSamplePort_pw (s : State) : (answerOnSamplePort s).pw = s.pw := rfl
@[simp] theorem answerOnSamplePort_lfsr (s : State) : (answerOnSamplePort s).lfsr = s.lfsr := rfl
@[simp] theorem answerOnSamplePort_fault (s : State) : (answerOnSamplePort s).fault = s.fault := rfl
@[simp] theorem answerOnSamplePort_inputs (s : State) : (answerOnSamplePort s).inputs = s.inputs := rfl
@[simp] theorem answerOnSamplePort_sample (s : State) : (answerOnSamplePort s).sample = s.rsp := rfl
@[simp] theorem answerOnSamplePort_rsp (s : State) : (answerOnSamplePort s).rsp = none := rfl
@[simp] theorem answerOnSamplePort_instants (s : State) : (answerOnSamplePort s).instants = s.instants := rfl

/-! ### presentCommand -/

@[simp] theorem presentCommand_config (word : OpWord) (s : State) : (presentCommand word s).config = s.config := rfl
@[simp] theorem presentCommand_phase (word : OpWord) (s : State) : (presentCommand word s).phase = s.phase := rfl
@[simp] theorem presentCommand_inc (word : OpWord) (s : State) : (presentCommand word s).inc = s.inc := rfl
@[simp] theorem presentCommand_wave (word : OpWord) (s : State) : (presentCommand word s).wave = s.wave := rfl
@[simp] theorem presentCommand_pw (word : OpWord) (s : State) : (presentCommand word s).pw = s.pw := rfl
@[simp] theorem presentCommand_lfsr (word : OpWord) (s : State) : (presentCommand word s).lfsr = s.lfsr := rfl
@[simp] theorem presentCommand_fault (word : OpWord) (s : State) : (presentCommand word s).fault = s.fault := rfl
@[simp] theorem presentCommand_inputs (word : OpWord) (s : State) : (presentCommand word s).inputs = { rst := false, tick := false, cmd := some word } :: s.inputs := rfl
@[simp] theorem presentCommand_sample (word : OpWord) (s : State) : (presentCommand word s).sample = s.sample := rfl
@[simp] theorem presentCommand_rsp (word : OpWord) (s : State) : (presentCommand word s).rsp = s.rsp := rfl
@[simp] theorem presentCommand_instants (word : OpWord) (s : State) : (presentCommand word s).instants = s.instants := rfl

/-! ### State.ofConfig -/

@[simp] theorem ofConfig_config (c : Config) : (State.ofConfig c).config = c := rfl
@[simp] theorem ofConfig_phase (c : Config) : (State.ofConfig c).phase = 0 := rfl
@[simp] theorem ofConfig_inc (c : Config) : (State.ofConfig c).inc = 0 := rfl
@[simp] theorem ofConfig_wave (c : Config) : (State.ofConfig c).wave = 0 := rfl
@[simp] theorem ofConfig_pw (c : Config) : (State.ofConfig c).pw = c.pwReset := rfl
@[simp] theorem ofConfig_lfsr (c : Config) : (State.ofConfig c).lfsr = c.noiseSeed := rfl
@[simp] theorem ofConfig_fault (c : Config) : (State.ofConfig c).fault = 0 := rfl
@[simp] theorem ofConfig_inputs (c : Config) : (State.ofConfig c).inputs = [] := rfl
@[simp] theorem ofConfig_sample (c : Config) : (State.ofConfig c).sample = none := rfl
@[simp] theorem ofConfig_rsp (c : Config) : (State.ofConfig c).rsp = none := rfl
@[simp] theorem ofConfig_instants (c : Config) : (State.ofConfig c).instants = 0 := rfl

end Sys2Proof.Machine
end

