-- ==== Sys2Proof/Laws/Frequency.lean ====
section
/-! SUPPORT. What the conversion and its commit can do (42_frequency_conversion.md). -/

namespace Sys2Proof.Machine

/-- `q` fits `W` bits exactly when `f < R` (R116), in whole numbers. -/
theorem increment_lt_iff (c : Config) (f : Frequency) :
    increment c f < 2 ^ c.width ↔
      f.numerator * 2 ^ (-f.exponent).toNat < c.updateRate * 2 ^ f.exponent.toNat := by
  have hpos : 0 < c.updateRate * 2 ^ f.exponent.toNat :=
    Nat.mul_pos c.updateRate_pos (Nat.two_pow_pos _)
  rw [increment, Nat.div_lt_iff_lt_mul hpos, Nat.mul_comm (2 ^ c.width)]
  exact Nat.mul_lt_mul_right (Nat.two_pow_pos c.width)

/-- A `q` of `W` bits is stored whole (R111, R118). -/
theorem incOf_toNat (c : Config) {q : Nat} (h : q < 2 ^ c.width) : (BitVec.ofNat 32 q).toNat = q := by
  have := c.two_pow_width_le
  rw [BitVec.toNat_ofNat, Nat.mod_eq_of_lt (by omega)]

/-- The saturated increment as a number (R116). -/
theorem largestIncrement_toNat (c : Config) : (largestIncrement c).toNat = 2 ^ c.width - 1 :=
  incOf_toNat c (by have := Nat.two_pow_pos c.width; omega)

/-- Everything a commit can do (R111). -/
theorem commit_cases (q : Nat) (s : State) :
    (q < 2 ^ s.config.width ∧ commit q s = answer 0x00 (writeInc (BitVec.ofNat 32 q) s)) ∨
      (2 ^ s.config.width ≤ q ∧ commit q s = violate .ovf (writeInc (largestIncrement s.config) s)) := by
  by_cases h : q < 2 ^ s.config.width
  · exact .inl ⟨h, by simp [commit, h]⟩
  · exact .inr ⟨by omega, by simp [commit, h]⟩

/-- A commit leaves a `W`-bit increment (R22). -/
theorem commit_inc_lt (q : Nat) (s : State) : (commit q s).inc.toNat < 2 ^ s.config.width := by
  obtain ⟨h, e⟩ | ⟨-, e⟩ := commit_cases q s
  · simpa [e, incOf_toNat _ h] using h
  · have := Nat.two_pow_pos s.config.width
    rw [e, violate_inc, writeInc_inc, largestIncrement_toNat]
    omega

end Sys2Proof.Machine
end

