-- ==== Sys2Proof/Laws/Sample.lean ====
section
/-! SUPPORT. What the phase accumulator, the index and the derivations can give (40_sample_generation.md). -/

namespace Sys2Proof.Machine

/-- The advanced phase as a number (R81). -/
theorem advancedPhase_toNat (c : Config) (p i : Accum) :
    (advancedPhase c p i).toNat = (p.toNat + i.toNat) % 2 ^ c.width := by
  have h := Nat.mod_lt (p.toNat + i.toNat) (Nat.two_pow_pos c.width)
  have hw := c.two_pow_width_le
  rw [advancedPhase, BitVec.toNat_ofNat, Nat.mod_eq_of_lt (by omega)]

/-- The advanced phase fits `W` bits (R21). -/
theorem advancedPhase_lt (c : Config) (p i : Accum) : (advancedPhase c p i).toNat < 2 ^ c.width := by
  rw [advancedPhase_toNat]
  exact Nat.mod_lt _ (Nat.two_pow_pos _)

/-- The index is `(phase >> F) mod T` (R30). -/
theorem tableIndex_eq (c : Config) (p : Accum) :
    tableIndex c p = p.toNat / 2 ^ c.fracBits % c.tableSize := by
  rw [tableIndex, Nat.shiftRight_eq_div_pow, Config.tableSize, Nat.and_two_pow_sub_one_eq_mod]

/-- The index is a table position (R30). -/
theorem tableIndex_lt (c : Config) (p : Accum) : tableIndex c p < c.tableSize := by
  rw [tableIndex_eq]
  exact Nat.mod_lt _ c.tableSize_pos

/-- For a phase of `W` bits the mask removes nothing (R30, R82). -/
theorem tableIndex_of_lt (c : Config) (p : Accum) (h : p.toNat < 2 ^ c.width) :
    tableIndex c p = p.toNat / 2 ^ c.fracBits := by
  rw [tableIndex_eq, Nat.mod_eq_of_lt]
  rw [Nat.div_lt_iff_lt_mul (Nat.two_pow_pos _), c.tableSize_mul]
  exact h

/-- The bitwise complement of an index is its distance from the top (R84). -/
theorem xor_tableSize (c : Config) {i : Nat} (h : i < c.tableSize) :
    i ^^^ (c.tableSize - 1) = c.tableSize - 1 - i := by
  have hx := BitVec.toNat_not (x := BitVec.ofNat c.indexBits i)
  rw [BitVec.not_def, BitVec.toNat_xor, BitVec.toNat_allOnes, BitVec.toNat_ofNat,
    Nat.mod_eq_of_lt (by simpa [Config.tableSize] using h)] at hx
  simpa [Config.tableSize, Nat.xor_comm] using hx

/-- A signed byte survives `pattern_8` (30_encoding.md R75). -/
theorem signed8_pattern8 {v : Int} (h1 : -128 ≤ v) (h2 : v ≤ 127) : signed8 (pattern8 v) = v := by
  rw [signed8, pattern8, BitVec.toInt_ofInt]
  exact Int.bmod_eq_of_le (by omega) (by omega)

/-- `pattern_8` undoes `signed_8`: the noise byte is handed over unchanged (R75, R86). -/
@[simp] theorem pattern8_signed8 (p : Byte) : pattern8 (signed8 p) = p := by
  simp [pattern8, signed8]

/-- The derivations that use the index stay in the ranges of R90. -/
theorem saw_bounds (c : Config) {i : Nat} (h : i < c.tableSize) :
    -((c.tableSize / 2 : Nat) : Int) ≤ saw c i ∧ saw c i ≤ (c.tableSize / 2 : Nat) - 1 := by
  have := c.tableSize_half
  rw [saw]
  omega

theorem triangle_bounds (c : Config) {i : Nat} (h : i < c.tableSize) :
    -((c.tableSize / 2 : Nat) : Int) ≤ triangle c i ∧ triangle c i ≤ (c.tableSize / 2 : Nat) - 2 := by
  have := c.tableSize_half
  rw [triangle, xor_tableSize c h]
  split <;> omega

/-- The step sends no state but 0 to 0 (R94): bit 15 of the result is the bit shifted out. -/
theorem lfsrStep_ne_zero {s : BitVec 16} (h : s ≠ 0) : lfsrStep s ≠ 0 := by
  intro h0
  apply h
  have h15 : (lfsrStep s).getLsbD 15 = s.getLsbD 0 := by
    simp only [lfsrStep, BitVec.getLsbD_xor, BitVec.getLsbD_ushiftRight]
    cases s.getLsbD 0 <;> simp [tapMask]
  rw [h0] at h15
  have hb : s.getLsbD 0 = false := by simpa using h15.symm
  have hz : s >>> 1 = 0 := by
    rw [lfsrStep, hb] at h0
    simpa using h0
  apply BitVec.eq_of_getLsbD_eq
  intro i hi
  rcases i with _ | i
  · simpa using hb
  · have := congrArg (fun x : BitVec 16 => x.getLsbD i) hz
    simpa [BitVec.getLsbD_ushiftRight, Nat.add_comm] using this

theorem lfsrAfter_ne_zero (w : Waveform) {s : BitVec 16} (h : s ≠ 0) : lfsrAfter w s ≠ 0 := by
  cases w with
  | noise => exact lfsrStep_ne_zero h
  | saw => exact h
  | triangle => exact h
  | rectangle => exact h

@[simp] theorem waveformOf_zero : waveformOf 0#2 = .saw := rfl
@[simp] theorem waveformOf_one : waveformOf 1#2 = .triangle := rfl
@[simp] theorem waveformOf_two : waveformOf 2#2 = .rectangle := rfl
@[simp] theorem waveformOf_three : waveformOf 3#2 = .noise := rfl

/-- A code selects NOISE exactly when it is 3 (10_state.md R23). -/
theorem waveformOf_eq_noise (w : BitVec 2) : waveformOf w = .noise ↔ w = 3#2 := by
  revert w; decide

end Sys2Proof.Machine
end

