-- ==== Sys2Proof/Laws/Exec.lean ====
section
/-! SUPPORT. Each operation's next state over the shared operations, what no operation touches, and one inversion of
`exec`: everything an operation can do to the registers. -/

namespace Sys2Proof.Machine

/-- NEXT_SAMPLE (40_sample_generation.md R80). -/
theorem exec_nextSample (s : State) :
    exec .nextSample s =
      .next (answer
        (pattern8 (derive s.config (waveformOf s.wave)
          (tableIndex s.config (advancedPhase s.config s.phase s.inc)) s.pw
          (lfsrAfter (waveformOf s.wave) s.lfsr)))
        { s with
          phase := advancedPhase s.config s.phase s.inc
          lfsr := lfsrAfter (waveformOf s.wave) s.lfsr }) := rfl

/-- SET_WAVEFORM, recognized (41_configuration.md R100). -/
theorem exec_setWaveform_of_le (s : State) {sel : Arg} (h : sel.toNat ≤ 3) :
    exec (.setWaveform sel) s = .next (answer 0x00 { s with wave := selectorCode sel }) := by
  simp [exec, execSetWaveform, selectorRecognized, h]

/-- SET_WAVEFORM, unrecognized (41_configuration.md R101). -/
theorem exec_setWaveform_of_gt (s : State) {sel : Arg} (h : 3 < sel.toNat) :
    exec (.setWaveform sel) s = .next (violate .waveSel s) := by
  simp [exec, execSetWaveform, selectorRecognized, Nat.not_le.mpr h]

/-- GET_WAVEFORM (R102). -/
theorem exec_getWaveform (s : State) :
    exec .getWaveform s = .next (answer (s.wave.zeroExtend 8) s) := rfl

/-- SET_PULSE_WIDTH (R103). -/
theorem exec_setPulseWidth (s : State) (p : BitVec 8) :
    exec (.setPulseWidth p) s = .next (answer 0x00 { s with pw := p }) := rfl

/-- SETF_INT (42_frequency_conversion.md R112). -/
theorem exec_setfInt (s : State) (a : Arg) :
    exec (.setfInt a) s = .next (commit (increment s.config (frequencyOfInt a)) s) := rfl

/-- SETF_Q24N8 (R114). -/
theorem exec_setfQ24n8 (s : State) (a : Arg) :
    exec (.setfQ24n8 a) s = .next (fixedPointFrequency (frequencyOfQ24n8 a) s) := rfl

/-- SETF_Q16N16 (R115). -/
theorem exec_setfQ16n16 (s : State) (a : Arg) :
    exec (.setfQ16n16 a) s = .next (fixedPointFrequency (frequencyOfQ16n16 a) s) := rfl

/-- Everything SETF_FLOAT can do (R113): it commits some `q`, clamps, saturates, or keeps `INC`. -/
theorem exec_setfFloat_cases (s : State) (a : Arg) :
    (∃ q, exec (.setfFloat a) s = .next (commit q s)) ∨
      (∃ v, (v = 0 ∨ v = largestIncrement s.config) ∧
        exec (.setfFloat a) s = .next (violate .ovf (writeInc v s))) ∨
      exec (.setfFloat a) s = .next (violate .ovf s) := by
  simp only [exec, execSetfFloat]
  cases floatClass a with
  | zero => exact .inl ⟨_, rfl⟩
  | positive x => exact .inl ⟨_, rfl⟩
  | negative => exact .inr (.inl ⟨_, .inl rfl, rfl⟩)
  | plusInfinity => exact .inr (.inl ⟨_, .inr rfl, rfl⟩)
  | minusInfinity => exact .inr (.inl ⟨_, .inl rfl, rfl⟩)
  | notANumber => exact .inr (.inr rfl)

/-- Everything a frequency operation can do: it commits some `q`, or records a violation, with `INC` either kept or
written with 0 or the largest increment. -/
theorem exec_frequency_cases {i : Instr} (hi : isFrequencyOp i = true) (s : State) :
    (∃ q, exec i s = .next (commit q s)) ∨
      (∃ v, (v = 0 ∨ v = largestIncrement s.config) ∧ exec i s = .next (violate .ovf (writeInc v s))) ∨
      (∃ f, exec i s = .next (violate f s)) := by
  cases i with
  | setfInt a => exact .inl ⟨_, rfl⟩
  | setfFloat a =>
    obtain h | h | h := exec_setfFloat_cases s a
    · exact .inl h
    · exact .inr (.inl h)
    · exact .inr (.inr ⟨_, h⟩)
  | setfQ24n8 a =>
    rw [exec_setfQ24n8, fixedPointFrequency]
    split
    · exact .inl ⟨_, rfl⟩
    · exact .inr (.inr ⟨_, rfl⟩)
  | setfQ16n16 a =>
    rw [exec_setfQ16n16, fixedPointFrequency]
    split
    · exact .inl ⟨_, rfl⟩
    · exact .inr (.inr ⟨_, rfl⟩)
  | nextSample => cases hi
  | setWaveform _ => cases hi
  | getWaveform => cases hi
  | setPulseWidth _ => cases hi
  | reserved0 => cases hi
  | reserved5 => cases hi
  | reserved6to7 _ => cases hi
  | reservedCtoF _ => cases hi

/-- Everything one operation can do to a state: `exec`, inverted. -/
inductive Effect (s : State) : Instr → State → Prop where
  | sample : Effect s .nextSample (answer
      (pattern8 (derive s.config (waveformOf s.wave)
        (tableIndex s.config (advancedPhase s.config s.phase s.inc)) s.pw
        (lfsrAfter (waveformOf s.wave) s.lfsr)))
      { s with
        phase := advancedPhase s.config s.phase s.inc
        lfsr := lfsrAfter (waveformOf s.wave) s.lfsr })
  | select (sel : Arg) (h : sel.toNat ≤ 3) :
      Effect s (.setWaveform sel) (answer 0x00 { s with wave := selectorCode sel })
  | read : Effect s .getWaveform (answer (s.wave.zeroExtend 8) s)
  | threshold (p : BitVec 8) : Effect s (.setPulseWidth p) (answer 0x00 { s with pw := p })
  | commit (i : Instr) (hi : isFrequencyOp i = true) (q : Nat) : Effect s i (commit q s)
  | clamp (i : Instr) (hi : isFrequencyOp i = true) (v : Accum) (hv : v = 0 ∨ v = largestIncrement s.config) :
      Effect s i (violate .ovf (writeInc v s))
  | record (i : Instr) (h1 : i ≠ .nextSample) (h2 : i ≠ .getWaveform) (h3 : ∀ p, i ≠ .setPulseWidth p)
      (v : Violation) : Effect s i (violate v s)

/-- Every next state of `exec` is one of the effects. -/
theorem exec_effect {i : Instr} {s t : State} (h : exec i s = .next t) : Effect s i t := by
  have frequency (hi : isFrequencyOp i = true) : Effect s i t := by
    obtain ⟨q, e⟩ | ⟨v, hv, e⟩ | ⟨f, e⟩ := exec_frequency_cases hi s <;>
      rw [h] at e <;> injection e with e <;> subst e
    · exact .commit i hi q
    · exact .clamp i hi v hv
    · exact .record i (by rintro rfl; cases hi) (by rintro rfl; cases hi) (by rintro _ rfl; cases hi) f
  cases i with
  | nextSample => cases h; exact .sample
  | setWaveform sel =>
    by_cases hs : sel.toNat ≤ 3
    · rw [exec_setWaveform_of_le s hs] at h; cases h
      exact .select sel hs
    · rw [exec_setWaveform_of_gt s (by omega)] at h; cases h
      exact .record _ (by simp) (by simp) (by simp) _
  | getWaveform => cases h; exact .read
  | setPulseWidth p => cases h; exact .threshold p
  | setfInt a => exact frequency rfl
  | setfFloat a => exact frequency rfl
  | setfQ24n8 a => exact frequency rfl
  | setfQ16n16 a => exact frequency rfl
  | reserved0 => cases h; exact .record _ (by simp) (by simp) (by simp) _
  | reserved5 => cases h; exact .record _ (by simp) (by simp) (by simp) _
  | reserved6to7 _ => cases h; exact .record _ (by simp) (by simp) (by simp) _
  | reservedCtoF _ => cases h; exact .record _ (by simp) (by simp) (by simp) _

/-- No operation touches the configuration or the ports' side of the state. -/
theorem exec_keeps_outside {i : Instr} {s t : State} (h : exec i s = .next t) :
    t.config = s.config ∧ t.inputs = s.inputs ∧ t.sample = s.sample ∧ t.instants = s.instants := by
  cases exec_effect h with
  | sample => simp
  | select => simp
  | read => simp
  | threshold => simp
  | commit _ _ q => obtain ⟨-, e⟩ | ⟨-, e⟩ := commit_cases q s <;> simp [e]
  | clamp => simp
  | record => simp

/-- The ports' side of a state, replaced. -/
def withPorts (inputs : List PortInput) (sample rsp : Option Byte) (instants : ℕ) (s : State) : State :=
  { s with inputs := inputs, sample := sample, rsp := rsp, instants := instants }

/-- No operation reads the ports' side of the state: replaced before, it is the same replaced after, and the
response is the operation's own (20_memory.md R47). -/
theorem exec_withPorts {i : Instr} {s t : State} (h : exec i s = .next t) (inputs : List PortInput)
    (sample rsp : Option Byte) (instants : ℕ) :
    exec i (withPorts inputs sample rsp instants s) = .next (withPorts inputs sample t.rsp instants t) := by
  have committed (q : ℕ) (u : State) : commit q (withPorts inputs sample rsp instants u) =
      withPorts inputs sample (commit q u).rsp instants (commit q u) := by
    unfold commit
    rw [show (withPorts inputs sample rsp instants u).config = u.config from rfl]
    split <;> rfl
  have fixedPoint (f : Frequency) (u : State) : fixedPointFrequency f (withPorts inputs sample rsp instants u) =
      withPorts inputs sample (fixedPointFrequency f u).rsp instants (fixedPointFrequency f u) := by
    unfold fixedPointFrequency
    rw [show (withPorts inputs sample rsp instants u).config = u.config from rfl]
    split
    · exact committed _ u
    · rfl
  cases i with
  | nextSample => cases h; rfl
  | setWaveform sel =>
    by_cases hs : sel.toNat ≤ 3
    · rw [exec_setWaveform_of_le _ hs] at h ⊢; cases h; rfl
    · rw [exec_setWaveform_of_gt _ (by omega)] at h ⊢; cases h; rfl
  | getWaveform => cases h; rfl
  | setPulseWidth p => cases h; rfl
  | setfInt a => cases h; exact congrArg _ (committed _ s)
  | setfFloat a =>
    simp only [exec, execSetfFloat] at h ⊢
    cases hc : floatClass a <;> rw [hc] at h <;> cases h
    · exact congrArg _ (committed _ s)
    · exact congrArg _ (committed _ s)
    · rfl
    · rfl
    · rfl
    · rfl
  | setfQ24n8 a => cases h; exact congrArg _ (fixedPoint _ s)
  | setfQ16n16 a => cases h; exact congrArg _ (fixedPoint _ s)
  | reserved0 => cases h; rfl
  | reserved5 => cases h; rfl
  | reserved6to7 _ => cases h; rfl
  | reservedCtoF _ => cases h; rfl

end Sys2Proof.Machine
end

