-- ==== Sys2Proof/Laws/Float.lean ====
section
/-! SUPPORT. The fields of a binary32 pattern as numbers, and its class by them (30_encoding.md R64,
42_frequency_conversion.md R122). -/

namespace Sys2Proof.Machine

theorem binary32Exponent_toNat (p : Arg) : (binary32Exponent p).toNat = p.toNat / 2 ^ 23 % 2 ^ 8 := by
  simp [binary32Exponent, Nat.shiftRight_eq_div_pow]

theorem binary32Fraction_toNat (p : Arg) : (binary32Fraction p).toNat = p.toNat % 2 ^ 23 := by
  simp [binary32Fraction]

/-- The sign bit is the quotient by `2^31`, which is 0 or 1. -/
theorem binary32Sign_eq (p : Arg) : binary32Sign p = decide (p.toNat / 2 ^ 31 = 1) := by
  have := p.isLt
  simp only [binary32Sign, BitVec.getLsbD, Nat.testBit_eq_decide_div_mod_eq]
  congr 1
  simp only [eq_iff_iff]
  omega

/-- The class of a pattern, by its three fields as numbers. -/
theorem floatClass_eq (p : Arg) :
    floatClass p =
      if p.toNat / 2 ^ 23 % 2 ^ 8 = 255 then
        if p.toNat % 2 ^ 23 ≠ 0 then .notANumber
        else if p.toNat / 2 ^ 31 = 1 then .minusInfinity
        else .plusInfinity
      else if p.toNat / 2 ^ 23 % 2 ^ 8 = 0 ∧ p.toNat % 2 ^ 23 = 0 then .zero
      else if p.toNat / 2 ^ 31 = 1 then .negative
      else .positive (binary32Magnitude p) := by
  have he (n : BitVec 8) : binary32Exponent p = n ↔ p.toNat / 2 ^ 23 % 2 ^ 8 = n.toNat := by
    rw [← binary32Exponent_toNat, BitVec.toNat_inj]
  have hm : binary32Fraction p = 0#23 ↔ p.toNat % 2 ^ 23 = 0 := by
    rw [← binary32Fraction_toNat, ← BitVec.toNat_inj]
    rfl
  have h255 : binary32Exponent p = 255#8 ↔ p.toNat / 2 ^ 23 % 2 ^ 8 = 255 := he 255#8
  have h0 : binary32Exponent p = 0#8 ↔ p.toNat / 2 ^ 23 % 2 ^ 8 = 0 := he 0#8
  simp only [floatClass, binary32Sign_eq, decide_eq_true_eq, BitVec.ofNat_eq_ofNat, h255, h0, hm, ne_eq]

end Sys2Proof.Machine
end

