-- ==== Sys2Proof/Laws/PerInstr.lean ====
section
/-! SUPPORT. Statements per operation: the canonical word of an operation lies in its row of the opcode table
(30_encoding.md R61, R69, R70). -/

namespace Sys2Proof.Laws.EncodesItsRow

/-- The canonical word of a well-formed operation carries the fixed bits of its row. -/
def Statement (i : Instr) : Prop := i.wf = true → encode i &&& i.tableMask = i.tableMatch

/-- A mask without argument bits keeps the masked opcode and nothing of the argument. -/
theorem opWord_and_mask (mask op : Opcode) (arg : Arg) :
    opWord op arg &&& opWord mask 0 = opWord (op &&& mask) 0 := by
  simp only [opWord]
  exact BitVec.and_append.trans (by simp)

/-- The rows of one opcode, at once. -/
theorem opWord_row (op : Opcode) (arg : Arg) : opWord op arg &&& 0xF00000000 = opWord op 0 := by
  rw [show (0xF00000000 : OpWord) = opWord 0xF 0 by decide, opWord_and_mask, show op &&& 0xF = op by revert op; decide]

theorem nextSample : Statement .nextSample := fun _ => by decide

theorem setWaveform (selector : Arg) : Statement (.setWaveform selector) := fun _ => opWord_row _ _

theorem getWaveform : Statement .getWaveform := fun _ => by decide

theorem setPulseWidth (threshold : BitVec 8) : Statement (.setPulseWidth threshold) := fun _ => opWord_row _ _

theorem setfInt (hertz : Arg) : Statement (.setfInt hertz) := fun _ => opWord_row _ _

theorem setfFloat (pattern : Arg) : Statement (.setfFloat pattern) := fun _ => opWord_row _ _

theorem setfQ24n8 (raw : Arg) : Statement (.setfQ24n8 raw) := fun _ => opWord_row _ _

theorem setfQ16n16 (raw : Arg) : Statement (.setfQ16n16 raw) := fun _ => opWord_row _ _

theorem reserved0 : Statement .reserved0 := fun _ => by decide

theorem reserved5 : Statement .reserved5 := fun _ => by decide

theorem reserved6to7 (op : Opcode) : Statement (.reserved6to7 op) := by
  unfold Statement
  revert op
  decide

theorem reservedCtoF (op : Opcode) : Statement (.reservedCtoF op) := by
  unfold Statement
  revert op
  decide

end Sys2Proof.Laws.EncodesItsRow
end

