-- ==== Sys2Proof/Laws/Step.lean ====
section
/-! SUPPORT. What one step does with what is presented: `nextEvent` and `step`, inverted once. -/

namespace Sys2Proof.Machine

/-- Which request is performed next, with the state it is performed on (20_memory.md R51, 60_exceptions.md R136). -/
inductive EventCase (s : State) : PortEvent → State → Prop where
  | quiet (h : s.inputs = []) : EventCase s .idle (beginInstant [] s)
  | noRequest (later : List PortInput) (h : s.inputs = ⟨false, false, none⟩ :: later) :
      EventCase s .idle (beginInstant later s)
  | reset (p : PortInput) (later : List PortInput) (h : s.inputs = p :: later) (hr : p.rst = true) :
      EventCase s .reset (beginInstant later s)
  | command (word : OpWord) (later : List PortInput) (h : s.inputs = ⟨false, false, some word⟩ :: later) :
      EventCase s (.command word) (beginInstant later s)
  | commandHoldingTick (word : OpWord) (later : List PortInput)
      (h : s.inputs = ⟨false, true, some word⟩ :: later) :
      EventCase s (.command word) (beginInstant (⟨false, true, none⟩ :: later) s)
  | sample (later : List PortInput) (h : s.inputs = ⟨false, true, none⟩ :: later) :
      EventCase s .sample (beginInstant later s)

/-- `nextEvent` answers one of the six cases. -/
theorem nextEvent_case (s : State) : EventCase s (nextEvent s).1 (nextEvent s).2 := by
  rw [nextEvent]
  rcases h : s.inputs with _ | ⟨⟨rst, tick, cmd⟩, later⟩
  · exact .quiet h
  · cases rst with
    | true => exact .reset _ _ h rfl
    | false =>
      cases cmd with
      | none =>
        cases tick with
        | true => exact .sample _ h
        | false => exact .noRequest _ h
      | some word =>
        cases tick with
        | true => exact .commandHoldingTick _ _ h
        | false => exact .command _ _ h

/-- Everything one step can do: `step`, inverted. -/
inductive StepCase (s : State) : State → Prop where
  | idle (u : State) (h : EventCase s .idle u) : StepCase s u
  | reset (u : State) (h : EventCase s .reset u) : StepCase s (resetRegisters u)
  | command (word : OpWord) (u t : State) (h : EventCase s (.command word) u)
      (e : exec (decode word) u = .next t) : StepCase s t
  | sample (u t : State) (h : EventCase s .sample u) (e : exec .nextSample u = .next t) :
      StepCase s (answerOnSamplePort t)

theorem step_case {s t : State} (h : step s = .next t) : StepCase s t := by
  have hc := nextEvent_case s
  rw [step] at h
  rcases he : nextEvent s with ⟨e, u⟩
  rw [he] at h hc
  cases e with
  | idle => cases h; exact .idle _ hc
  | reset => cases h; exact .reset _ hc
  | command word => exact .command word u t hc h
  | sample => cases h; exact .sample u _ hc (exec_nextSample u)

/-- Nothing is presented any more. -/
theorem step_quiet {s : State} (h : s.inputs = []) : step s = .next (beginInstant [] s) := by
  simp [step, nextEvent, h]

/-- An instant without a request. -/
theorem step_noRequest {s : State} {later : List PortInput} (h : s.inputs = ⟨false, false, none⟩ :: later) :
    step s = .next (beginInstant later s) := by
  simp [step, nextEvent, h]

/-- `rst` asserted. -/
theorem step_rst {s : State} {p : PortInput} {later : List PortInput} (h : s.inputs = p :: later)
    (hr : p.rst = true) : step s = .next (resetRegisters (beginInstant later s)) := by
  simp [step, nextEvent, h, hr]

/-- A command alone. -/
theorem step_command {s : State} {word : OpWord} {later : List PortInput}
    (h : s.inputs = ⟨false, false, some word⟩ :: later) :
    step s = exec (decode word) (beginInstant later s) := by
  simp [step, nextEvent, h]

/-- A command with a coinciding sample request. -/
theorem step_commandHoldingTick {s : State} {word : OpWord} {later : List PortInput}
    (h : s.inputs = ⟨false, true, some word⟩ :: later) :
    step s = exec (decode word) (beginInstant (⟨false, true, none⟩ :: later) s) := by
  simp [step, nextEvent, h]

/-- A sample request alone. -/
theorem step_tick {s : State} {later : List PortInput} (h : s.inputs = ⟨false, true, none⟩ :: later) :
    step s = onSamplePort (exec .nextSample (beginInstant later s)) := by
  simp [step, nextEvent, h]

/-- An instant changes only the ports' side of the state. -/
theorem EventCase.keeps_registers {s u : State} {e : PortEvent} (h : EventCase s e u) :
    u.config = s.config ∧ u.phase = s.phase ∧ u.inc = s.inc ∧ u.wave = s.wave ∧ u.pw = s.pw ∧
      u.lfsr = s.lfsr ∧ u.fault = s.fault := by
  cases h <;> simp

end Sys2Proof.Machine
end

