-- ==== Sys2Proof/Laws/Run.lean ====
section
/-! SUPPORT. Runs, one step at a time; the model's run is the host's. -/

namespace Sys2Proof.Machine

@[simp] theorem run_zero (s : State) : run 0 s = .next s := rfl

/-- A run goes on from the next state of its first step. -/
theorem run_succ (n : ℕ) {s t : State} (h : step s = .next t) : run (n + 1) s = run n t := by
  rw [run, h]

/-- The host's run, one step on, for any machine. -/
theorem host_run_succ (M : Host.Core) (n : ℕ) {s t : M.State} (h : M.step s = .next t) :
    M.run (n + 1) s = M.run n t := by
  simp only [Host.Core.run, h]

/-- Where the model's run ends in a next state, the host's run of `core` ends in the same. -/
theorem core_run_of_run (n : ℕ) {s t : State} (h : run n s = .next t) :
    Host.Core.run Sys2Proof.core n s = .next t := by
  induction n generalizing s with
  | zero => exact h
  | succ n ih =>
    rw [run] at h
    cases hs : step s with
    | next u =>
      rw [hs] at h
      exact (host_run_succ Sys2Proof.core n (s := s) (t := u) hs).trans (ih h)
    | fault f => nomatch f
    | refused r => rw [hs] at h; nomatch h

end Sys2Proof.Machine
end

