-- ==== Sys2Proof/Tests/Slice0.lean ====
section
/-! SUPPORT. Tests on single steps, with expected values from spec/95_test_vectors.md or worked by hand from the rule
named, and one witness for the hypotheses of every statement that has any. -/

namespace Sys2Proof.Tests

open Sys2Proof Sys2Proof.Machine Sys2Proof.Spec

/-! ### Helpers -/

/-- The reference instance with the six registers given in the order of 95_test_vectors.md. -/
def regs (phase inc : Accum) (wave : BitVec 2) (pw : BitVec 8) (lfsr : BitVec 16) (fault : BitVec 4) : State :=
  { State.reset with phase := phase, inc := inc, wave := wave, pw := pw, lfsr := lfsr, fault := fault }

/-- The profile of vector V9, `T = 16`, `F = 12`, `R = 64`. -/
def rate64 : Config := ⟨4, 12, 64, 0xACE1, 0x80, by decide⟩

/-- The same with `R = 65`. -/
def rate65 : Config := ⟨4, 12, 65, 0xACE1, 0x80, by decide⟩

/-- The profile of program P7, `T = 16`, `F = 12`, `R = 1000`. -/
def small : Config := ⟨4, 12, 1000, 0xACE1, 0x80, by decide⟩

/-- The smallest profile: `T = 2`, `F = 0`, `R = 1`. -/
def least : Config := ⟨1, 0, 1, 0x0001, 0x00, by decide⟩

/-- One field of the next state, if there is one. -/
def look {α : Type} (field : State → α) : Host.Outcome State Fault Refusal → Option α
  | .next t => some (field t)
  | .fault _ => none
  | .refused _ => none

/-- An instance with requests waiting. -/
def asked (inputs : List PortInput) (s : State) : State := { s with inputs := inputs }

/-! ### Well-formedness: the check refuses each ill-formed term (30_encoding.md R69) -/

theorem test_wf_refuses_reserved6to7_of_another_opcode : (Instr.reserved6to7 0x5).wf = false := by decide

theorem test_wf_refuses_reservedCtoF_of_another_opcode : (Instr.reservedCtoF 0xB).wf = false := by decide

theorem test_wf_accepts_its_own_opcodes :
    (Instr.reserved6to7 0x6).wf = true ∧ (Instr.reserved6to7 0x7).wf = true ∧
      (Instr.reservedCtoF 0xC).wf = true ∧ (Instr.reservedCtoF 0xF).wf = true := by decide

/-! ### Decoding: words written out from 30_encoding.md R60, R61, R69, the opcode's four bits first -/

theorem test_decode_nextSample :
    decode 0b0001_00000000_00000000_00000000_00000000 = .nextSample := by decide

theorem test_decode_setWaveform_rectangle :
    decode 0b0010_00000000_00000000_00000000_00000010 = .setWaveform 2 := by decide

theorem test_decode_setWaveform_keeps_all_bits :
    decode 0b0010_10000000_00000000_00000001_00000000 = .setWaveform 0x80000100 := by decide

theorem test_decode_getWaveform :
    decode 0b0011_00000000_00000000_00000000_00000000 = .getWaveform := by decide

theorem test_decode_getWaveform_ignores_arg : decode 0x3DEADBEEF = .getWaveform := by decide

theorem test_decode_setPulseWidth :
    decode 0b0100_00000000_00000000_00000000_10000000 = .setPulseWidth 128 := by decide

theorem test_decode_setPulseWidth_takes_the_low_byte : decode 0x4FFFFFF7F = .setPulseWidth 0x7F := by decide

theorem test_decode_setfInt :
    decode 0b1000_00000000_00000000_00000001_10111000 = .setfInt 440 := by decide

theorem test_decode_setfFloat :
    decode 0b1001_01000011_11011100_00000000_00000000 = .setfFloat 0x43DC0000 := by decide

theorem test_decode_setfQ24n8 :
    decode 0b1010_00000000_00000001_10111000_00000000 = .setfQ24n8 0x0001B800 := by decide

theorem test_decode_setfQ16n16 :
    decode 0b1011_00000001_10111000_00000000_00000000 = .setfQ16n16 0x01B80000 := by decide

theorem test_decode_reserved0 :
    decode 0b0000_00000000_00000000_00000000_00000000 = .reserved0 := by decide

theorem test_decode_reserved5 : decode 0b0101_00000000_00000000_00010010_00110100 = .reserved5 := by decide

theorem test_decode_reserved6to7 :
    decode 0b0110_00000000_00000000_00000000_00000001 = .reserved6to7 0x6 ∧
      decode 0b0111_00000000_00000000_00000000_00000000 = .reserved6to7 0x7 := by decide

theorem test_decode_reservedCtoF :
    decode 0b1100_00000000_00000000_00000000_00000000 = .reservedCtoF 0xC ∧
      decode 0b1111_11111111_11111111_11111111_11111111 = .reservedCtoF 0xF := by decide

/-- A number above the 36 bits of the port is no word (log 12). -/
theorem test_decodeTableWord_edges :
    decodeTableWord 36 0xFFFFFFFFF = some (.reservedCtoF 0xF) ∧ decodeTableWord 37 0x1000000000 = none := by decide

/-! ### NEXT_SAMPLE: vectors V1, V3, and program P7 -/

theorem test_nextSample_by_waveform :
    look (fun t => (t.phase, t.rsp)) (exec .nextSample (regs 0xFFEEE6 0x00FDF3 0 0x80 0xACE1 0)) =
      some (0x00ECD9, some 0x80) ∧
      look (fun t => t.rsp) (exec .nextSample (regs 0x7F0000 0x010000 1 0x80 0xACE1 0)) = some (some 0x7E) ∧
      look (fun t => t.rsp) (exec .nextSample (regs 0x3F0000 0x010000 2 0x40 0xACE1 0)) = some (some 0x81) ∧
      look (fun t => t.rsp) (exec .nextSample (regs 0x400000 0x010000 2 0x40 0xACE1 0)) = some (some 0x7F) ∧
      look (fun t => (t.phase, t.lfsr, t.rsp)) (exec .nextSample (regs 0x000000 0x100000 3 0x80 0x0E27 0)) =
        some (0x100000, 0xB313, some 0xB3) := by decide

theorem test_nextSample_small_profile :
    look (fun t => (t.phase, t.rsp))
      (exec .nextSample { State.ofConfig small with phase := 0x3332, inc := 0x1999 }) =
        some (0x4CCB, some 0xFC) := by decide

/-! ### Configuration: section 3 of the vectors -/

theorem test_setWaveform_valid :
    look (fun t => (t.wave, t.fault)) (exec (.setWaveform 3) (regs 0 0 1 0x80 0xACE1 0)) = some (3, 0x0) := by decide

theorem test_setWaveform_unrecognized :
    look (fun t => (t.wave, t.fault)) (exec (.setWaveform 0x100) (regs 0 0 2 0x80 0xACE1 0)) = some (2, 0x1) := by
  decide

theorem test_getWaveform :
    look (fun t => (t.rsp, t.fault)) (exec .getWaveform (regs 0 0 3 0x80 0xACE1 0x5)) = some (some 0x03, 0x5) := by
  decide

theorem test_setPulseWidth :
    look (fun t => (t.pw, t.rsp, t.fault)) (exec (decode 0x400000100) (regs 0 0 0 0x40 0xACE1 0)) =
      some (0x00, some 0x00, 0x0) := by decide

/-! ### Frequencies: vectors V5 to V9 -/

theorem test_setfInt_largest_that_fits :
    look (fun t => (t.inc, t.fault)) (exec (.setfInt 15999) State.reset) = some (0xFFFBE7, 0x0) := by decide

theorem test_setfInt_saturates :
    look (fun t => (t.inc, t.fault)) (exec (.setfInt 16000) State.reset) = some (0xFFFFFF, 0x4) := by decide

theorem test_setfFloat_tenth :
    look (fun t => (t.inc, t.fault)) (exec (.setfFloat 0x3DCCCCCD) State.reset) = some (0x000068, 0x0) := by decide

theorem test_setfFloat_not_a_number :
    look (fun t => (t.inc, t.fault)) (exec (.setfFloat 0xFFC00000) (regs 0 0x123456 0 0x80 0xACE1 0)) =
      some (0x123456, 0x4) := by decide

theorem test_setfQ24n8_largest_that_fits :
    look (fun t => (t.inc, t.fault)) (exec (.setfQ24n8 0x003E7FFF) State.reset) = some (0xFFFFFB, 0x0) := by decide

theorem test_setfQ24n8_refused_at_rate_64_only :
    look (fun t => (t.inc, t.fault)) (exec (.setfQ24n8 0xFFFFFFFF) (State.ofConfig rate64)) = some (0x0000, 0x2) ∧
      look (fun t => (t.inc, t.fault)) (exec (.setfQ24n8 0x100) (State.ofConfig rate65)) = some (0x03F0, 0x0) := by
  decide

theorem test_setfQ16n16_largest_that_fits_is_no_saturation :
    look (fun t => (t.inc, t.fault)) (exec (.setfQ16n16 0x3E7FFFFF) State.reset) = some (0xFFFFFF, 0x0) := by decide

theorem test_setfQ16n16_refused_at_rate_64_only :
    look (fun t => (t.inc, t.fault)) (exec (.setfQ16n16 0x10000) (State.ofConfig rate64)) = some (0x0000, 0x2) ∧
      look (fun t => (t.inc, t.fault)) (exec (.setfQ16n16 0x10000) (State.ofConfig rate65)) = some (0x03F0, 0x0) := by
  decide

/-! ### Reserved opcodes: vector V10 -/

theorem test_reserved_opcodes_accumulate :
    look (fun t => (t.fault, t.rsp)) (exec (decode 0x000000000) (regs 0 0x418 1 0x80 0xACE1 0x5)) =
      some (0xD, some 0x00) ∧
      look (fun t => t.fault) (exec (decode 0x500001234) (regs 0 0 0 0x80 0xACE1 0x0)) = some 0x8 ∧
      look (fun t => t.fault) (exec (decode 0x700000000) (regs 0 0 0 0x80 0xACE1 0x0)) = some 0x8 ∧
      look (fun t => t.fault) (exec (decode 0xF12345678) (regs 0 0 0 0x80 0xACE1 0xD)) = some 0xD := by decide

/-! ### The ports -/

/-- A coinciding command goes first and the tick stays at its port (20_memory.md R51). -/
theorem test_step_command_before_tick :
    look (fun t => (t.wave, t.sample, t.rsp, t.inputs))
      (step (asked [{ rst := false, tick := true, cmd := some 0x200000001 }] State.reset)) =
        some (1, none, some 0x00, [tickOnly]) := by decide

/-- A tick answers on the sample port (30_encoding.md R73; 70_reset_and_hazards.md R152). -/
theorem test_step_tick_answers_on_the_sample_port :
    look (fun t => (t.sample, t.rsp)) (step (asked [tickOnly] State.reset)) = some (some 0x80, none) := by decide

/-- Reset discards what is presented with it (70_reset_and_hazards.md R150). -/
theorem test_step_reset_discards :
    look (fun t => (t.phase, t.inc, t.wave, t.inputs))
      (step (asked [{ rst := true, tick := true, cmd := some 0x200000001 }] (regs 1 2 3 4 5 6))) =
        some (0, 0, 0, []) ∧
      look (fun t => (t.pw, t.lfsr, t.fault))
        (step (asked [{ rst := true, tick := true, cmd := some 0x200000001 }] (regs 1 2 3 4 5 6))) =
          some (0x80, 0xACE1, 0) := by decide

/-- The fetched word is the next thing performed. -/
theorem test_withFetchWord_runs :
    look (fun t => t.inc) (step (State.reset.withFetchWord 36 0x8000003E8)) = some 0x100000 := by decide

/-! ### Witnesses

Each shows a state and operands that meet the hypotheses of the statement it is named after, one for each clause. -/

theorem witness_InstanceStartsAtResetValues : least.tableSize = 2 ∧ least.width = 1 := by decide

theorem witness_RstPutsAllRegistersAtReset :
    (asked [{ rst := true, tick := true, cmd := none }] (regs 1 2 3 4 5 6)).inputs =
      { rst := true, tick := true, cmd := none } :: [] := rfl

theorem witness_SimultaneousRequestsAreOrdered :
    (asked [{ rst := true, tick := true, cmd := some 0x200000001 }] State.reset).inputs =
        { rst := true, tick := true, cmd := some 0x200000001 } :: [] ∧
      (asked [{ rst := false, tick := true, cmd := some 0x200000001 }] State.reset).inputs =
        { rst := false, tick := true, cmd := some 0x200000001 } :: [] := ⟨rfl, rfl⟩

theorem witness_CoincidingSampleIsHeldAndPerformedSecond :
    (asked [{ rst := false, tick := true, cmd := some 0x800001F40 }, tickOnly] State.reset).inputs =
      { rst := false, tick := true, cmd := some 0x800001F40 } :: [tickOnly] := rfl

theorem witness_StepPerformsThePresentedWord :
    (asked [{ rst := false, tick := false, cmd := some 0x0 }] State.reset).inputs =
      { rst := false, tick := false, cmd := some 0x0 } :: [] := rfl

theorem witness_TickPerformsNextSampleOnItsPort :
    (asked [tickOnly] State.reset).inputs = tickOnly :: [] := rfl

theorem witness_FetchedWordRunsNext :
    0x0 < 2 ^ 36 ∧ 0x8000001B8 < 2 ^ 36 ∧ 0xFFFFFFFFF < 2 ^ 36 := by decide

theorem witness_IdlePortsHoldEveryRegister : (regs 1 2 3 4 5 6).inputs = [] := rfl

theorem witness_DecodeOfEncodeIsTheOperation :
    (Instr.reserved6to7 0x7).wf = true ∧ (Instr.reservedCtoF 0xC).wf = true ∧
      (Instr.setfInt 0xFFFFFFFF).wf = true := by decide

theorem witness_EveryWordMatchesExactlyItsRow :
    (0x943DC0000 : OpWord) &&& (Instr.setfFloat 0).tableMask = (Instr.setfFloat 0).tableMatch ∧
      (0x700000000 : OpWord) &&& (Instr.reserved6to7 0x6).tableMask = (Instr.reserved6to7 0x6).tableMatch ∧
      isReservedRow (decode 0xBFFFFFFFF) = false := by decide

theorem witness_SawSampleIsIndexLessHalf :
    (regs 0xFFFFFF 1 0 0x80 0xACE1 0).wave = 0 ∧ (regs 0xFFFFFF 1 0 0x80 0xACE1 0).config.tableSize = 256 := by
  decide

theorem witness_TriangleSampleRisesThenFalls :
    (regs 0x7E0000 0x010000 1 0x80 0xACE1 0).wave = 1 ∧
      (nextIndex (regs 0x7E0000 0x010000 1 0x80 0xACE1 0) : ℤ) <
        halfTable (regs 0x7E0000 0x010000 1 0x80 0xACE1 0).config ∧
      (regs 0x7F0000 0x010000 1 0x80 0xACE1 0).wave = 1 ∧
      halfTable (regs 0x7F0000 0x010000 1 0x80 0xACE1 0).config ≤
        nextIndex (regs 0x7F0000 0x010000 1 0x80 0xACE1 0) := by decide

theorem witness_RectangleSampleComparesIndexWithPulseWidth :
    (regs 0x400000 0x010000 2 0x40 0xACE1 0).wave = 2 ∧
      (regs 0x400000 0x010000 2 0x40 0xACE1 0).pw.toNat < nextIndex (regs 0x400000 0x010000 2 0x40 0xACE1 0) ∧
      (regs 0x3F0000 0x010000 2 0x40 0xACE1 0).wave = 2 ∧
      nextIndex (regs 0x3F0000 0x010000 2 0x40 0xACE1 0) ≤ (regs 0x3F0000 0x010000 2 0x40 0xACE1 0).pw.toNat := by
  decide

theorem witness_NoiseSampleIsTheHighByteOfTheSteppedRegister :
    (regs 0 0 3 0x80 0xACE1 0).wave = 3 ∧ (regs 7 9 3 0x01 0xACE1 1).wave = 3 ∧
      (regs 0 0 3 0x80 0xACE1 0).lfsr = (regs 7 9 3 0x01 0xACE1 1).lfsr := by decide

theorem witness_NoiseRegisterIsLeftAloneOutsideNoise :
    ¬ ((Instr.getWaveform : Instr) = .nextSample ∧ (regs 0 0 3 0x80 0xACE1 0).wave = 3) ∧
      ¬ ((Instr.nextSample : Instr) = .nextSample ∧ (regs 0 0 2 0x80 0xACE1 0).wave = 3) ∧
      (asked [tickOnly] (regs 0 0 2 0x80 0xACE1 0)).wave ≠ 3 ∧
      (∀ p ∈ (asked [tickOnly] (regs 0 0 2 0x80 0xACE1 0)).inputs.head?, p.rst = false) ∧
      (∀ p ∈ (asked [tickOnly] (regs 0 0 3 0x80 0xACE1 0)).inputs.head?, p.rst = false) := by decide

theorem witness_SampleRangesPerWaveform :
    (regs 0 0 0 0x80 0xACE1 0).wave = 0 ∧ (regs 0 0 1 0x80 0xACE1 0).wave = 1 ∧
      (regs 0 0 2 0x80 0xACE1 0).wave = 2 := by decide

/-- One table step per call, for the sample before the drop and for one in the ramp. -/
theorem witness_SawRampHasOneDropPerPeriod :
    (regs 0xFE0000 0x010000 0 0x80 0xACE1 0).wave = 0 ∧
      (regs 0xFE0000 0x010000 0 0x80 0xACE1 0).inc.toNat =
        2 ^ (regs 0xFE0000 0x010000 0 0x80 0xACE1 0).config.fracBits ∧
      look (fun t => t.rsp) (exec .nextSample (regs 0xFE0000 0x010000 0 0x80 0xACE1 0)) = some (some 0x7F) ∧
      look (fun t => t.rsp) (exec .nextSample (regs 0x0F0000 0x010000 0 0x80 0xACE1 0)) = some (some 0x90) := by
  decide

/-- Every clause at an end of its range, in the smallest profile and the reference one. -/
theorem witness_TriangleIsAPalindrome :
    0 < least.tableSize ∧ 126 + 1 < Config.reference.tableSize / 2 ∧ 127 + 1 = Config.reference.tableSize / 2 ∧
      Config.reference.tableSize / 2 ≤ 128 ∧ 254 + 1 < Config.reference.tableSize ∧
      255 < Config.reference.tableSize ∧ 0 + 1 = least.tableSize / 2 := by decide

theorem witness_ZeroIncrementRepeatsTheSample :
    (regs 0x800000 0 0 0x80 0xACE1 0).Inv ∧ (regs 0x800000 0 0 0x80 0xACE1 0).inc = 0 ∧
      (regs 0x800000 0 0 0x80 0xACE1 0).wave ≠ 3 ∧ (regs 0x800000 0 3 0x80 0xACE1 0).Inv ∧
      (regs 0x800000 0 3 0x80 0xACE1 0).inc = 0 ∧ (regs 0x800000 0 3 0x80 0xACE1 0).wave = 3 := by decide

theorem witness_NoisePeriodIs65535FromEveryNonzeroState : (0xACE1 : BitVec 16) ≠ 0 := by decide

theorem witness_SamplesAdvanceThePhaseByMultiplesOfTheIncrement :
    (asked [tickOnly, tickOnly] (regs 0xFFEEE6 0x00FDF3 0 0x80 0xACE1 0)).Inv ∧
      (asked [tickOnly, tickOnly] (regs 0xFFEEE6 0x00FDF3 0 0x80 0xACE1 0)).inputs = List.replicate 2 tickOnly := by
  decide

theorem witness_SetWaveformStoresARecognizedSelector :
    (0 : Arg).toNat ≤ 3 ∧ (3 : Arg).toNat ≤ 3 := by decide

theorem witness_SetWaveformIgnoresAndRecordsAnUnrecognizedSelector :
    4 ≤ (4 : Arg).toNat ∧ 4 ≤ (0xFFFFFFFF : Arg).toNat := by decide

theorem witness_GetWaveformAnswersTheLastSelection :
    (∀ sel : Arg, Instr.setWaveform 4 = .setWaveform sel → 4 ≤ sel.toNat) ∧
      (∀ sel : Arg, Instr.getWaveform = .setWaveform sel → 4 ≤ sel.toNat) ∧ (3 : Arg).toNat ≤ 3 := by
  refine ⟨fun sel h => ?_, fun sel h => ?_, by decide⟩
  · cases h
    decide
  · cases h

/-- All four selectors, with the presentations the statement asks for, and a state for each side of each clause. -/
theorem witness_NewWaveformShowsInTheVeryNextSample :
    (∀ k : Fin 4, (BitVec.ofNat 32 k.val : Arg).toNat = k.val) ∧
      (asked [{ rst := false, tick := false, cmd := some (encode (.setWaveform 3)) }, tickOnly] State.reset).inputs =
        { rst := false, tick := false, cmd := some (encode (.setWaveform 3)) } :: tickOnly :: [] ∧
      (nextIndex (regs 0x7E0000 0x010000 1 0x80 0xACE1 0) : ℤ) < halfTable Config.reference ∧
      halfTable Config.reference ≤ nextIndex (regs 0x7F0000 0x010000 1 0x80 0xACE1 0) ∧
      (0x7F : BitVec 8).toNat < nextIndex (regs 0x7F0000 0x010000 1 0x80 0xACE1 0) ∧
      nextIndex (regs 0x7F0000 0x010000 1 0x80 0xACE1 0) ≤ (0x80 : BitVec 8).toNat := by decide

theorem witness_SetfIntCommitsTheExactIncrement :
    (((15999 : Arg).toNat : ℕ) : ℚ) < (Config.reference.updateRate : ℚ) ∧
      (Config.reference.updateRate : ℚ) ≤ (((16000 : Arg).toNat : ℕ) : ℚ) := by
  constructor <;> simp [Config.reference]
  norm_num

/-- The classes of R122: both zeros, the least and the greatest positive value, a negative one, the infinities, two
patterns that are no number. -/
theorem witness_SetfFloatActsByTheClassOfThePattern :
    (floatExponent 0x00000000 < 255 ∧ 0 ≤ floatValue 0x00000000) ∧
      (floatExponent 0x80000000 < 255 ∧ 0 ≤ floatValue 0x80000000) ∧
      (floatExponent 0x00000001 < 255 ∧ 0 ≤ floatValue 0x00000001) ∧
      (floatExponent 0x7F7FFFFF < 255 ∧ 0 ≤ floatValue 0x7F7FFFFF) ∧
      (floatExponent 0xBF800000 < 255 ∧ floatValue 0xBF800000 < 0) ∧
      (floatExponent 0x7F800000 = 255 ∧ floatFraction 0x7F800000 = 0 ∧ floatSign 0x7F800000 = 0) ∧
      (floatExponent 0xFF800000 = 255 ∧ floatFraction 0xFF800000 = 0 ∧ floatSign 0xFF800000 = 1) ∧
      (floatExponent 0x7F800001 = 255 ∧ floatFraction 0x7F800001 ≠ 0) ∧
      (floatExponent 0xFFC00000 = 255 ∧ floatFraction 0xFFC00000 ≠ 0) := by
  simp [floatValue, floatSign, floatExponent, floatFraction]
  norm_num

theorem witness_SetfQ24n8CommitsTheExactIncrement :
    64 < rate65.updateRate ∧ rate64.updateRate ≤ 64 := by decide

theorem witness_SetfQ16n16CommitsTheExactIncrement :
    64 < rate65.updateRate ∧ rate64.updateRate ≤ 64 := by decide

theorem witness_RateFloorRefusesFixedPointFrequencies :
    rate64.updateRate ≤ 64 ∧ 65 ≤ rate65.updateRate := by decide

/-- The last clause: `2^-16` Hz in the reference instance. -/
theorem witness_ZeroFrequencyGivesZeroIncrement :
    64 < State.reset.config.updateRate ∧ ¬ Refused State.reset.config (.setfQ16n16 1) ∧
      frequencyOf (.setfQ16n16 1) = some (1 / 2 ^ 16) ∧
      (1 / 2 ^ 16 : ℚ) < (State.reset.config.updateRate : ℚ) / 2 ^ State.reset.config.width := by
  simp [State.reset, State.ofConfig, Config.reference, Config.width, Refused, frequencyOf]
  norm_num

/-- 440 Hz in the four forms (42_frequency_conversion.md R120). -/
theorem witness_EntryPointsAgreeOnEqualFrequencies :
    frequencyOf (.setfInt 440) = some 440 ∧ frequencyOf (.setfFloat 0x43DC0000) = some 440 ∧
      frequencyOf (.setfQ24n8 0x0001B800) = some 440 ∧ frequencyOf (.setfQ16n16 0x01B80000) = some 440 ∧
      ¬ Refused State.reset.config (.setfInt 440) ∧ ¬ Refused State.reset.config (.setfFloat 0x43DC0000) ∧
      ¬ Refused State.reset.config (.setfQ24n8 0x0001B800) ∧ ¬ Refused State.reset.config (.setfQ16n16 0x01B80000) := by
  simp [State.reset, State.ofConfig, Config.reference, Refused, frequencyOf, floatValue, floatSign, floatExponent,
    floatFraction]
  norm_num

/-- An operation that is carried out and one that is refused, on two states of one instance. -/
theorem witness_FrequencyOperationsDoNotReadTheRegisters :
    isFrequencyOp (.setfInt 440) = true ∧ isFrequencyOp (.setfFloat 0x7FC00000) = true ∧
      State.reset.config = (regs 1 2 3 4 5 6).config ∧ ¬ Refused State.reset.config (.setfInt 440) ∧
      Refused State.reset.config (.setfFloat 0x7FC00000) := by
  refine ⟨rfl, rfl, rfl, fun h => h, ?_⟩
  simp [Refused, floatExponent, floatFraction]

/-- The four causes, each raised at an edge of its condition, and operations just inside the contract. -/
theorem witness_FaultBitsStickUntilReset :
    (Raises Config.reference (.setWaveform 4) .waveSel ∧ Raises rate64 (.setfQ24n8 0) .rate ∧
      Raises Config.reference (.setfInt 16000) .ovf ∧ Raises Config.reference (.reservedCtoF 0xF) .op) ∧
    (InContract Config.reference (.setWaveform 3) ∧ InContract rate65 (.setfQ24n8 0) ∧
      InContract Config.reference (.setfInt 15999) ∧ InContract Config.reference .nextSample) ∧
    (∀ p ∈ (asked [tickOnly] State.reset).inputs.head?, p.rst = false) ∧
      (asked [{ rst := true, tick := false, cmd := none }] State.reset).inputs =
        { rst := true, tick := false, cmd := none } :: [] := by
  refine ⟨?_, ?_, by decide, rfl⟩
  · simp [Raises, rate64, Config.reference]
  · simp [InContract, Raises, rate65, Config.reference]

theorem witness_ViolationsHaveOnePriority :
    ReservedOp 0x0 ∧ ReservedOp 0xF ∧ ¬ ReservedOp 0x1 ∧ ¬ ReservedOp 0xB ∧ rate64.updateRate ≤ 64 ∧
      Raises rate64 (.setfQ24n8 0xFFFFFFFF) .rate := by
  unfold ReservedOp Raises
  decide

theorem witness_ReservedOpcodesSetTheFlagAndNothingElse : ReservedOp 0x5 ∧ ReservedOp 0xC := by
  simp [ReservedOp]

theorem witness_FaultNeverInfluencesAnythingElse :
    AgreeButFault State.reset { State.reset with fault := 0xF } :=
  ⟨rfl, rfl, rfl, rfl, rfl, rfl, rfl, rfl, rfl, rfl⟩

theorem witness_IncrementChangesOnlyByFrequencyOperationOrReset :
    ∀ p ∈ (asked [{ rst := false, tick := true, cmd := some 0x200000001 }] State.reset).inputs.head?,
      p.rst = false ∧ ∀ w ∈ p.cmd, isFrequencyOp (decode w) = false := by
  intro p hp
  cases hp
  refine ⟨rfl, fun w hw => ?_⟩
  cases hw
  rfl

theorem witness_EveryOperationButNextSampleIsIdempotent : (Instr.setfInt 440) ≠ .nextSample := by decide

theorem witness_StepKeepsTheInvariant :
    (asked [tickOnly] (regs 0xFFFFFF 0x000001 3 0x80 0x0001 0)).Inv ∧
      look (fun t => (t.phase, t.lfsr)) (step (asked [tickOnly] (regs 0xFFFFFF 0x000001 3 0x80 0x0001 0))) =
        some (0x000000, 0xB400) := by decide

/-- The invariant refuses a state no run reaches. -/
theorem test_inv_refuses_a_dead_noise_register : ¬ (regs 0 0 3 0x80 0x0000 0).Inv := by decide

end Sys2Proof.Tests
end

section
/-! PROOFS. The decoder and the rows of the opcode table (30_encoding.md R60 to R70), and the operations whose
meaning is all encoding: SET_PULSE_WIDTH (R67, R103) and the reserved rows (R69). -/

namespace Sys2Proof.Encoding

open Sys2Proof Sys2Proof.Machine Sys2Proof.Spec
open Sys2Proof.Laws.EncodesItsRow (opWord_and_mask opWord_row)

/-! ### The word of an opcode and an argument -/

/-- `op_word[35:32]` is the quotient by `2^32` (R60). -/
theorem opField_toNat (w : OpWord) : (opField w).toNat = w.toNat / 2 ^ 32 := by
  have := w.isLt
  simp only [opField, BitVec.extractLsb'_toNat, Nat.shiftRight_eq_div_pow]
  omega

/-- The word written with digits is the word built of its fields (R60). -/
theorem wordOf_eq_opWord (op : Opcode) (arg : Arg) : wordOf op arg = opWord op arg := by
  apply BitVec.eq_of_toNat_eq
  have hop := op.isLt
  have harg := arg.isLt
  rw [wordOf, opWord, BitVec.toNat_append, ← Nat.shiftLeft_add_eq_or_of_lt harg, Nat.shiftLeft_eq,
    BitVec.toNat_ofNat]
  omega

/-- A word without argument bits is its opcode shifted to its place (R60). -/
theorem opWord_zero (op : Opcode) : opWord op 0 = BitVec.ofNat 36 op.toNat <<< 32 := by
  revert op
  decide

@[simp] theorem opField_wordOf (op : Opcode) (arg : Arg) : opField (wordOf op arg) = op := by
  rw [wordOf_eq_opWord, opField_opWord]

@[simp] theorem argField_wordOf (op : Opcode) (arg : Arg) : argField (wordOf op arg) = arg := by
  rw [wordOf_eq_opWord, argField_opWord]

/-! ### The decoder, inverted -/

/-- What the decoder can read from a word: one case per row of the opcode table (R61, R69). -/
inductive DecodeCase (w : OpWord) : Instr → Prop where
  | nextSample (h : opField w = 0x1) : DecodeCase w .nextSample
  | setWaveform (h : opField w = 0x2) : DecodeCase w (.setWaveform (argField w))
  | getWaveform (h : opField w = 0x3) : DecodeCase w .getWaveform
  | setPulseWidth (h : opField w = 0x4) : DecodeCase w (.setPulseWidth ((argField w).extractLsb' 0 8))
  | setfInt (h : opField w = 0x8) : DecodeCase w (.setfInt (argField w))
  | setfFloat (h : opField w = 0x9) : DecodeCase w (.setfFloat (argField w))
  | setfQ24n8 (h : opField w = 0xA) : DecodeCase w (.setfQ24n8 (argField w))
  | setfQ16n16 (h : opField w = 0xB) : DecodeCase w (.setfQ16n16 (argField w))
  | reserved0 (h : opField w = 0x0) : DecodeCase w .reserved0
  | reserved5 (h : opField w = 0x5) : DecodeCase w .reserved5
  | reserved6to7 (h : opField w = 0x6 ∨ opField w = 0x7) : DecodeCase w (.reserved6to7 (opField w))
  | reservedCtoF (h : opField w = 0xC ∨ opField w = 0xD ∨ opField w = 0xE ∨ opField w = 0xF) :
      DecodeCase w (.reservedCtoF (opField w))

/-- The four opcodes no row below `0xC` takes. -/
theorem opcode_of_twelve_le {op : Opcode} (h : 12 ≤ op.toNat) : op = 0xC ∨ op = 0xD ∨ op = 0xE ∨ op = 0xF := by
  revert op
  decide

/-- The decoder is total (R70): every word is in one of the twelve cases. -/
theorem decode_case (w : OpWord) : DecodeCase w (decode w) := by
  have named {n : Opcode} (h : (opField w).toNat = n.toNat) : opField w = n := BitVec.eq_of_toNat_eq h
  unfold decode
  split
  next h => exact .reserved0 (named h)
  next h => exact .nextSample (named h)
  next h => exact .setWaveform (named h)
  next h => exact .getWaveform (named h)
  next h => exact .setPulseWidth (named h)
  next h => exact .reserved5 (named h)
  next h => exact named (n := 0x6) h ▸ .reserved6to7 (.inl (named h))
  next h => exact named (n := 0x7) h ▸ .reserved6to7 (.inr (named h))
  next h => exact .setfInt (named h)
  next h => exact .setfFloat (named h)
  next h => exact .setfQ24n8 (named h)
  next h => exact .setfQ16n16 (named h)
  next =>
    have : 12 ≤ (opField w).toNat := by grind
    exact .reservedCtoF (opcode_of_twelve_le this)

theorem decode_eq_nextSample {w : OpWord} (h : opField w = 0x1) : decode w = .nextSample := by
  simp [decode, h]

theorem decode_eq_getWaveform {w : OpWord} (h : opField w = 0x3) : decode w = .getWaveform := by
  simp [decode, h]

theorem decode_eq_setPulseWidth {w : OpWord} (h : opField w = 0x4) :
    decode w = .setPulseWidth ((argField w).extractLsb' 0 8) := by
  simp [decode, h]

/-- No word decodes to an ill-formed term. -/
theorem DecodeCase.wf {w : OpWord} {i : Instr} (hi : DecodeCase w i) : i.wf = true := by
  cases hi with
  | reserved6to7 h => simpa [Instr.wf] using h
  | reservedCtoF h => simpa [Instr.wf, or_assoc] using h
  | _ => rfl

/-- A word decodes to a reserved row exactly when its opcode is reserved (R69). -/
theorem DecodeCase.isReservedRow_iff {w : OpWord} {i : Instr} (hi : DecodeCase w i) :
    isReservedRow i = true ↔ ReservedOp (opField w) := by
  cases hi with
  | reserved6to7 h => simp only [isReservedRow, ReservedOp]; tauto
  | reservedCtoF h => simp only [isReservedRow, ReservedOp]; tauto
  | _ h => simp [isReservedRow, ReservedOp, h]

/-! ### The rows of the opcode table -/

/-- No row's mask or match has an argument bit (R70). -/
theorem table_fixes_opcode_only (i : Instr) :
    i.tableMask = opWord (opField i.tableMask) 0 ∧ i.tableMatch = opWord (opField i.tableMatch) 0 := by
  cases i
  all_goals
    simp only [Instr.tableMask, Instr.tableMatch]
    decide

/-- Whether a word matches a row is a matter of its opcode alone (R70). -/
theorem matches_row_iff (w : OpWord) (i : Instr) :
    w &&& i.tableMask = i.tableMatch ↔ opField w &&& opField i.tableMask = opField i.tableMatch := by
  obtain ⟨hmask, hmatch⟩ := table_fixes_opcode_only i
  have hand : w &&& i.tableMask = opWord (opField w &&& opField i.tableMask) 0 := by
    rw [← opWord_and_mask _ _ (argField w), opWord_fields, ← hmask]
  rw [hand]
  constructor
  · intro h
    rw [← h, opField_opWord]
  · intro h
    rw [h, ← hmatch]

/-- The least opcode of the row that holds an opcode: its own, but for the two rows of several opcodes (R69). -/
def rowStart (op : Opcode) : Opcode := if op = 0x7 then 0x6 else if 0xC ≤ op then 0xC else op

/-- The rows are disjoint: an opcode is in no row but the one `rowStart` names. -/
theorem tableMatch_eq_rowStart {i : Instr} {op : Opcode}
    (h : op &&& opField i.tableMask = opField i.tableMatch) : i.tableMatch = opWord (rowStart op) 0 := by
  cases i
  all_goals
    simp only [Instr.tableMask, Instr.tableMatch] at h ⊢
    revert op
    decide

/-- Every word lies in the row of the operation it decodes to (R70). -/
theorem DecodeCase.matches_row {w : OpWord} {i : Instr} (hi : DecodeCase w i) :
    w &&& i.tableMask = i.tableMatch := by
  rw [matches_row_iff]
  cases hi with
  | reserved6to7 h => obtain h | h := h <;> rw [h] <;> rfl
  | reservedCtoF h => obtain h | h | h | h := h <;> rw [h] <;> rfl
  | _ h => simp only [h, Instr.tableMask, Instr.tableMatch]; decide

/-- A word that lies in a row decodes to an operation of that row. -/
theorem tableMatch_decode_of_matches {w : OpWord} {i : Instr} (h : w &&& i.tableMask = i.tableMatch) :
    i.tableMatch = (decode w).tableMatch :=
  calc i.tableMatch = opWord (rowStart (opField w)) 0 := tableMatch_eq_rowStart ((matches_row_iff w i).mp h)
    _ = (decode w).tableMatch :=
      (tableMatch_eq_rowStart ((matches_row_iff w _).mp ((decode_case w).matches_row))).symm

/-- The eight operations have rows of one opcode (R70). -/
theorem tableMask_of_not_reserved {i : Instr} (h : isReservedRow i = false) : i.tableMask = 0xF00000000 := by
  cases i with
  | reserved0 => cases h
  | reserved5 => cases h
  | reserved6to7 _ => cases h
  | reservedCtoF _ => cases h
  | _ => rfl

/-- The match of each of the eight operations is its opcode in place (R70). -/
theorem tableMatch_decode_of_not_reserved {w : OpWord} (h : isReservedRow (decode w) = false) :
    (decode w).tableMatch = BitVec.ofNat 36 (w.toNat / 2 ^ 32) <<< 32 :=
  calc (decode w).tableMatch
      = w &&& 0xF00000000 := by rw [← (decode_case w).matches_row, tableMask_of_not_reserved h]
    _ = opWord (opField w) (argField w) &&& 0xF00000000 := by rw [opWord_fields]
    _ = BitVec.ofNat 36 (w.toNat / 2 ^ 32) <<< 32 := by rw [opWord_row, opWord_zero, opField_toNat]

/-! ### The reserved rows -/

/-- The violation of a reserved opcode: bit 3 of `FAULT` and the response 0x00, nothing else (R69, R132). -/
theorem violate_op (s : State) :
    violate .op s = { s with fault := s.fault ||| 0b1000#4, rsp := some 0x00 } := rfl

/-- The four reserved rows act alike (R69). -/
theorem exec_of_isReservedRow {i : Instr} (h : isReservedRow i = true) (s : State) :
    exec i s = .next (violate .op s) := by
  cases i with
  | reserved0 => rfl
  | reserved5 => rfl
  | reserved6to7 _ => rfl
  | reservedCtoF _ => rfl
  | _ => cases h

/-! ### The statements -/

/-- Settles O12: the decoder inverted puts every word in its row, and rows are disjoint. -/
theorem everyWordMatchesExactlyItsRow : Obligations.EveryWordMatchesExactlyItsRow := by
  refine ⟨fun w => ?_, fun w i => tableMatch_decode_of_matches, fun w h => ?_⟩
  · exact ⟨(decode_case w).wf, (decode_case w).matches_row⟩
  · exact ⟨tableMask_of_not_reserved h, tableMatch_decode_of_not_reserved h⟩

/-- Settles O14: of a word with `op` 0x1 or 0x3 the decoder uses nothing but `op`. -/
theorem ignoredArgumentBitsDoNotMatter : Obligations.IgnoredArgumentBitsDoNotMatter := by
  have hnext (a : Arg) : decode (wordOf 0x1 a) = .nextSample := decode_eq_nextSample (opField_wordOf _ _)
  have hget (a : Arg) : decode (wordOf 0x3 a) = .getWaveform := decode_eq_getWaveform (opField_wordOf _ _)
  refine ⟨fun a b => ?_, fun a => ⟨hnext a, hget a⟩, by decide, by decide⟩
  constructor
  · rw [hnext, hnext]
  · rw [hget, hget]

/-- Settles O33: the decoder keeps `arg[7:0]`, and the operation stores it. -/
theorem setPulseWidthStoresTheLowByte : Obligations.SetPulseWidthStoresTheLowByte := by
  intro s arg
  have hdecode : decode (wordOf 0x4 arg) = .setPulseWidth (arg.extractLsb' 0 8) := by
    rw [decode_eq_setPulseWidth (opField_wordOf _ _), argField_wordOf]
  rw [hdecode, exec_setPulseWidth]
  refine ⟨_, rfl, rfl, ?_, ?_⟩
  · simp
  · simp [OutsideKept]

/-- Settles O47: the words with a reserved opcode decode to the reserved rows, and those record the violation. -/
theorem reservedOpcodesSetTheFlagAndNothingElse : Obligations.ReservedOpcodesSetTheFlagAndNothingElse := by
  refine ⟨fun s op arg h => ?_, fun s op i h => ?_⟩
  · rw [exec_of_isReservedRow ((decode_case _).isReservedRow_iff.mpr (by rwa [opField_wordOf])), violate_op]
  · obtain rfl | rfl | rfl | rfl := h <;> rw [exec_of_isReservedRow rfl, violate_op]

end Sys2Proof.Encoding
end

section
/-! PROOFS. NEXT_SAMPLE in any waveform, RECTANGLE, and the noise register (40_sample_generation.md R80 to R82,
R85 to R89). -/

namespace Sys2Proof.SampleGeneration

open Sys2Proof Sys2Proof.Machine Sys2Proof.Spec

/-! ### The state NEXT_SAMPLE leaves -/

/-- The byte NEXT_SAMPLE answers, from the index of the advanced phase and the noise register it leaves (R80). -/
def sampleByte (s : State) : Byte :=
  pattern8 (derive s.config (waveformOf s.wave) (nextIndex s) s.pw (lfsrAfter (waveformOf s.wave) s.lfsr))

/-- The state after NEXT_SAMPLE (R80). -/
def sampled (s : State) : State :=
  answer (sampleByte s)
    { s with
      phase := advancedPhase s.config s.phase s.inc
      lfsr := lfsrAfter (waveformOf s.wave) s.lfsr }

@[simp] theorem sampled_rsp (s : State) : (sampled s).rsp = some (sampleByte s) := rfl

@[simp] theorem sampled_lfsr (s : State) : (sampled s).lfsr = lfsrAfter (waveformOf s.wave) s.lfsr := rfl

/-- The index of the advanced phase is its field `[W-1:F]`: the mask removes nothing (R82). -/
theorem tableIndex_advancedPhase (s : State) :
    tableIndex s.config (advancedPhase s.config s.phase s.inc) = nextIndex s := by
  rw [tableIndex_of_lt _ _ (advancedPhase_lt _ _ _), advancedPhase_toNat, nextIndex, nextPhase]

/-- NEXT_SAMPLE completes in every state (R89). -/
theorem exec_nextSample_eq (s : State) : exec .nextSample s = .next (sampled s) := by
  rw [exec_nextSample, tableIndex_advancedPhase, sampled, sampleByte]

/-- Beside its response and the noise register, NEXT_SAMPLE writes `PHASE` alone (R81). -/
theorem sampleFrame_sampled (s : State) : SampleFrame s (sampled s) := by
  refine ⟨?_, rfl, rfl, rfl, rfl, exec_keeps_outside (exec_nextSample_eq s)⟩
  exact advancedPhase_toNat s.config s.phase s.inc

/-! ### RECTANGLE -/

theorem sampleByte_rectangle {s : State} (h : s.wave = 2) :
    sampleByte s = pattern8 (rectangle (nextIndex s) s.pw) := by
  rw [sampleByte, h]; rfl

theorem rectangle_of_gt {index : ℕ} {pw : BitVec 8} (h : pw.toNat < index) : rectangle index pw = 127 :=
  if_pos h

theorem rectangle_of_le {index : ℕ} {pw : BitVec 8} (h : index ≤ pw.toNat) : rectangle index pw = -127 :=
  if_neg h.not_gt

/-! ### The noise register -/

/-- The step over the numbers: halve, and exclusive-OR the mask when the number was odd (R86). -/
theorem lfsrStep_toNat (l : BitVec 16) : (lfsrStep l).toNat = noiseStep l.toNat := by
  have hbit : l.getLsbD 0 = decide (l.toNat % 2 = 1) := Nat.testBit_zero _
  rw [lfsrStep, noiseStep, BitVec.toNat_xor, BitVec.toNat_ushiftRight, Nat.shiftRight_one, hbit]
  by_cases hodd : l.toNat % 2 = 1 <;> simp [hodd, tapMask]

theorem lfsrAfter_noise {w : BitVec 2} (h : w = 3) (l : BitVec 16) : lfsrAfter (waveformOf w) l = lfsrStep l := by
  rw [h]; rfl

/-- No waveform but NOISE steps the register (R88). -/
theorem lfsrAfter_of_ne {w : BitVec 2} (h : w ≠ 3) (l : BitVec 16) : lfsrAfter (waveformOf w) l = l := by
  have hw : waveformOf w ≠ .noise := mt (waveformOf_eq_noise w).mp h
  cases hwf : waveformOf w with
  | noise => exact absurd hwf hw
  | saw => rfl
  | triangle => rfl
  | rectangle => rfl

/-- In NOISE the byte is the high byte of the stepped register, handed over unchanged (R86, R87). -/
theorem sampleByte_noise {s : State} (h : s.wave = 3) : sampleByte s = (lfsrStep s.lfsr).extractLsb' 8 8 := by
  rw [sampleByte, lfsrAfter_noise h, h]
  exact pattern8_signed8 _

theorem highByte_toNat (l : BitVec 16) : (l.extractLsb' 8 8).toNat = l.toNat / 2 ^ 8 := by
  have := l.isLt
  rw [BitVec.extractLsb'_toNat, Nat.shiftRight_eq_div_pow]
  omega

/-! ### Who writes the noise register -/

/-- Every operation completes (60_exceptions.md R130). -/
theorem exec_total (i : Instr) (s : State) : ∃ t, exec i s = .next t := by
  have frequency (hi : isFrequencyOp i = true) : ∃ t, exec i s = .next t := by
    obtain ⟨q, e⟩ | ⟨v, -, e⟩ | ⟨f, e⟩ := exec_frequency_cases hi s
    · exact ⟨_, e⟩
    · exact ⟨_, e⟩
    · exact ⟨_, e⟩
  cases i with
  | setWaveform sel =>
    obtain h | h := le_or_gt sel.toNat 3
    · exact ⟨_, exec_setWaveform_of_le s h⟩
    · exact ⟨_, exec_setWaveform_of_gt s h⟩
  | setfInt a => exact frequency rfl
  | setfFloat a => exact frequency rfl
  | setfQ24n8 a => exact frequency rfl
  | setfQ16n16 a => exact frequency rfl
  | _ => exact ⟨_, rfl⟩

/-- Every step completes (R130). -/
theorem step_total (s : State) : ∃ t, step s = .next t := by
  rw [step]
  obtain ⟨event, u⟩ := nextEvent s
  cases event with
  | idle => exact ⟨_, rfl⟩
  | reset => exact ⟨_, rfl⟩
  | command word => exact exec_total (decode word) u
  | sample => exact ⟨_, rfl⟩

/-- An operation leaves `LFSR` as it is, but for a NEXT_SAMPLE in NOISE, which steps it (R88). -/
theorem exec_lfsr {i : Instr} {s t : State} (h : exec i s = .next t) :
    t.lfsr = s.lfsr ∨ (i = .nextSample ∧ s.wave = 3) ∧ t.lfsr = lfsrStep s.lfsr := by
  cases exec_effect h with
  | sample =>
    by_cases hw : s.wave = 3
    · exact .inr ⟨⟨rfl, hw⟩, lfsrAfter_noise hw _⟩
    · exact .inl (lfsrAfter_of_ne hw _)
  | commit _ _ q => obtain ⟨-, e⟩ | ⟨-, e⟩ := commit_cases q s <;> exact .inl (by simp [e])
  | _ => exact .inl rfl

/-- A step that is no reset leaves `LFSR` as it is or, in NOISE, steps it once (R88). -/
theorem step_lfsr {s t : State} (h : step s = .next t) (hrst : ∀ p ∈ s.inputs.head?, p.rst = false) :
    t.lfsr = s.lfsr ∨ s.wave = 3 ∧ t.lfsr = lfsrStep s.lfsr := by
  have performed {e : PortEvent} {i : Instr} {u v : State} (hc : EventCase s e u) (hv : exec i u = .next v) :
      v.lfsr = s.lfsr ∨ s.wave = 3 ∧ v.lfsr = lfsrStep s.lfsr := by
    obtain ⟨-, -, -, hwave, -, hlfsr, -⟩ := hc.keeps_registers
    rw [← hwave, ← hlfsr]
    exact (exec_lfsr hv).imp_right fun ⟨⟨_, hw⟩, hl⟩ => ⟨hw, hl⟩
  cases step_case h with
  | idle _ hc =>
    obtain ⟨-, -, -, -, -, hlfsr, -⟩ := hc.keeps_registers
    exact .inl hlfsr
  | reset _ hc =>
    cases hc with
    | reset p later hin hr => exact absurd (hrst p (by simp [hin])) (by simp [hr])
  | command word u _ hc hv => exact performed hc hv
  | sample u v hc hv =>
    rw [answerOnSamplePort_lfsr]
    exact performed hc hv

/-! ### The statements -/

/-- Settles O15: the frame of NEXT_SAMPLE holds in every state. -/
theorem nextSampleAdvancesThePhase : Obligations.NextSampleAdvancesThePhase :=
  fun s => ⟨sampled s, sampleByte s, exec_nextSample_eq s, sampleFrame_sampled s, rfl⟩

/-- Settles O18: the two outcomes of the strict comparison. -/
theorem rectangleSampleComparesIndexWithPulseWidth : Obligations.RectangleSampleComparesIndexWithPulseWidth := by
  intro s hw
  refine ⟨sampled s, sampleByte s, exec_nextSample_eq s, rfl, fun h => ?_, fun h => ?_, sampleFrame_sampled s,
    lfsrAfter_of_ne (by rw [hw]; decide) _⟩
  · rw [sampleByte_rectangle hw, rectangle_of_gt h]
    decide
  · rw [sampleByte_rectangle hw, rectangle_of_le h]
    decide

/-- Settles O19: the register is stepped first, and its new high byte is the sample. -/
theorem noiseSampleIsTheHighByteOfTheSteppedRegister :
    Obligations.NoiseSampleIsTheHighByteOfTheSteppedRegister := by
  constructor
  · intro s hw
    refine ⟨sampled s, sampleByte s, exec_nextSample_eq s, rfl, ?_, ?_, sampleFrame_sampled s⟩
    · rw [sampled_lfsr, lfsrAfter_noise hw, lfsrStep_toNat]
    · rw [sampleByte_noise hw, sampled_lfsr, lfsrAfter_noise hw, highByte_toNat]
  · intro s u hs hu hl
    refine ⟨sampled s, sampled u, exec_nextSample_eq s, exec_nextSample_eq u, ?_, ?_⟩
    · rw [sampled_rsp, sampled_rsp, sampleByte_noise hs, sampleByte_noise hu, hl]
    · rw [sampled_lfsr, sampled_lfsr, hs, hu, hl]

/-- Settles O20: every operation and every step completes, and neither has a case that writes `LFSR` but
NEXT_SAMPLE in NOISE and reset. -/
theorem noiseRegisterIsLeftAloneOutsideNoise : Obligations.NoiseRegisterIsLeftAloneOutsideNoise := by
  refine ⟨fun i s hi => ?_, fun s hw hrst => ?_, fun s hrst => ?_⟩
  · obtain ⟨t, ht⟩ := exec_total i s
    exact ⟨t, ht, (exec_lfsr ht).resolve_right fun h => hi h.1⟩
  · obtain ⟨t, ht⟩ := step_total s
    exact ⟨t, ht, (step_lfsr ht hrst).resolve_right fun h => hw h.1⟩
  · obtain ⟨t, ht⟩ := step_total s
    exact ⟨t, ht, (step_lfsr ht hrst).imp_right fun ⟨_, hl⟩ => by rw [hl, lfsrStep_toNat]⟩

end Sys2Proof.SampleGeneration
end

section
/-! PROOFS. The selection of a waveform: SET_WAVEFORM and GET_WAVEFORM (41_configuration.md R100 to R102). -/

namespace Sys2Proof.Configuration

open Sys2Proof Sys2Proof.Machine Sys2Proof.Spec
open Sys2Proof.SampleGeneration (exec_total)

/-- The flag of an unrecognized selector is bit 0 (R101, 60_exceptions.md R132). -/
theorem faultWith_waveSel (fault : BitVec 4) : faultWith .waveSel fault = fault ||| 0b0001#4 := rfl

/-- A recognized selector is its own code (R100). -/
theorem selectorCode_toNat {sel : Arg} (h : sel.toNat ≤ 3) : (selectorCode sel).toNat = sel.toNat := by
  rw [selectorCode, BitVec.extractLsb'_toNat, Nat.shiftRight_zero]
  exact Nat.mod_eq_of_lt (by omega)

/-- `zext_8(WAVE)` is the number `WAVE` holds (R102). -/
theorem zeroExtend_wave_toNat (wave : BitVec 2) : (wave.zeroExtend 8).toNat = wave.toNat :=
  BitVec.toNat_setWidth_of_le (by decide)

/-- An operation leaves `WAVE` as it is, but for a SET_WAVEFORM with a recognized selector (R100, R101). -/
theorem exec_wave {i : Instr} {s t : State} (h : exec i s = .next t) :
    t.wave = s.wave ∨ ∃ sel : Arg, i = .setWaveform sel ∧ sel.toNat ≤ 3 := by
  cases exec_effect h with
  | select sel hsel => exact .inr ⟨sel, rfl, hsel⟩
  | commit _ _ q => obtain ⟨-, e⟩ | ⟨-, e⟩ := commit_cases q s <;> exact .inl (by simp [e])
  | _ => exact .inl rfl

/-! ### The statements -/

/-- Settles O31: an unrecognized selector is a violation and nothing else. -/
theorem setWaveformIgnoresAndRecordsAnUnrecognizedSelector :
    Obligations.SetWaveformIgnoresAndRecordsAnUnrecognizedSelector := by
  intro s sel hsel
  have hexec : exec (.setWaveform sel) s = .next (violate .waveSel s) := exec_setWaveform_of_gt s hsel
  exact ⟨_, hexec, faultWith_waveSel s.fault, rfl, rfl, rfl, rfl, rfl, rfl, exec_keeps_outside hexec⟩

/-- Settles O32: the answer is `WAVE`, which a recognized selector and reset write and no other operation does. -/
theorem getWaveformAnswersTheLastSelection : Obligations.GetWaveformAnswersTheLastSelection := by
  refine ⟨fun s => ?read, fun i s hi => ?kept, fun s sel hsel => ?selected, fun s => ?fromReset⟩
  case read =>
    exact ⟨_, _, exec_getWaveform s, rfl, zeroExtend_wave_toNat s.wave, ⟨rfl, rfl, rfl, rfl, rfl, rfl, rfl⟩,
      exec_keeps_outside (exec_getWaveform s)⟩
  case kept =>
    obtain ⟨t, ht⟩ := exec_total i s
    refine ⟨t, ht, (exec_wave ht).resolve_right ?_⟩
    rintro ⟨sel, rfl, hsel⟩
    have := hi sel rfl
    omega
  case selected =>
    refine ⟨_, _, _, exec_setWaveform_of_le s hsel, exec_getWaveform _, rfl, ?_⟩
    rw [zeroExtend_wave_toNat, answer_wave, selectorCode_toNat hsel]
  case fromReset =>
    exact ⟨_, exec_getWaveform _, rfl⟩

end Sys2Proof.Configuration
end

section
/-! PROOFS. The four frequency operations: the exact conversion over the rationals, its commit, the classes of a
binary32 pattern, and what a refused operation keeps (42_frequency_conversion.md R110 to R123). -/

namespace Sys2Proof.FrequencyConversion

open Sys2Proof Sys2Proof.Machine Sys2Proof.Spec
open Sys2Proof.SampleGeneration (exec_total)

/-! ### The conversion over the rationals -/

/-- The frequency a numerator and a denominator exponent stand for, `n / 2^d` Hz (R123). -/
def hertz (f : Frequency) : ℚ := f.numerator * (2 : ℚ) ^ (-f.exponent)

/-- A negative denominator exponent is a multiplication (R123). -/
theorem hertz_eq_div (f : Frequency) :
    hertz f = ((f.numerator * 2 ^ (-f.exponent).toNat : ℕ) : ℚ) / (2 ^ f.exponent.toNat : ℕ) := by
  have hsplit : (2 : ℚ) ^ (-f.exponent) = 2 ^ (-f.exponent).toNat / 2 ^ f.exponent.toNat := by
    rw [← zpow_natCast, ← zpow_natCast, ← zpow_sub₀ two_ne_zero]
    congr 1
    omega
  rw [hertz, hsplit]
  push_cast
  rw [mul_div_assoc]

theorem hertz_nonneg (f : Frequency) : 0 ≤ hertz f := by
  unfold hertz
  positivity

theorem updateRate_cast_pos (c : Config) : (0 : ℚ) < c.updateRate := by exact_mod_cast c.updateRate_pos

/-- The conversion is the floor of the exact quotient (R110). -/
theorem increment_eq_floor (c : Config) (f : Frequency) :
    (increment c f : ℤ) = ⌊hertz f * 2 ^ c.width / c.updateRate⌋ := by
  rw [increment, Int.natCast_ediv, ← Rat.floor_natCast_div_natCast, hertz_eq_div]
  push_cast
  congr 1
  ring

/-- `q` fits `W` bits exactly when `f < R` (R116). -/
theorem increment_lt_iff_hertz_lt (c : Config) (f : Frequency) :
    increment c f < 2 ^ c.width ↔ hertz f < c.updateRate := by
  rw [increment_lt_iff, hertz_eq_div, div_lt_iff₀ (by positivity)]
  norm_cast

/-- A frequency below one unit of `INC` floors to 0 (R119, R124). -/
theorem increment_eq_zero {c : Config} {f : Frequency} (h : hertz f < (c.updateRate : ℚ) / 2 ^ c.width) :
    increment c f = 0 := by
  have hfloor : ⌊hertz f * 2 ^ c.width / c.updateRate⌋ = 0 := by
    rw [Int.floor_eq_zero_iff]
    refine ⟨div_nonneg (mul_nonneg (hertz_nonneg f) (by positivity)) (updateRate_cast_pos c).le, ?_⟩
    rwa [div_lt_one (updateRate_cast_pos c), ← lt_div_iff₀ (by positivity)]
  exact_mod_cast (increment_eq_floor c f).trans hfloor

/-! ### The commit -/

/-- The flag of a frequency too large is bit 2 (R116, 60_exceptions.md R132). -/
theorem faultWith_ovf (fault : BitVec 4) : faultWith .ovf fault = fault ||| 0b0100#4 := rfl

/-- The flag of a refused fixed-point operation is bit 1 (R117, 60_exceptions.md R132). -/
theorem faultWith_rate (fault : BitVec 4) : faultWith .rate fault = fault ||| 0b0010#4 := rfl

theorem commit_zero (s : State) : commit 0 s = answer 0x00 (writeInc 0 s) :=
  if_pos (Nat.two_pow_pos _)

/-- What a commit writes depends on the configuration and the quotient alone (R121). -/
theorem commit_inc_congr (q : ℕ) {s u : State} (h : s.config = u.config) : (commit q s).inc = (commit q u).inc := by
  unfold commit
  rw [h]
  split <;> rfl

/-- The conversion and commit of a frequency (R111, R116). -/
theorem commits_increment (f : Frequency) (s : State) :
    Commits (hertz f) s (commit (increment s.config f) s) := by
  obtain ⟨hfits, e⟩ | ⟨hover, e⟩ := commit_cases (increment s.config f) s
  · have hlt := (increment_lt_iff_hertz_lt s.config f).mp hfits
    refine ⟨fun _ => ⟨?_, by rw [e]; rfl⟩, fun hge => absurd hlt hge.not_gt⟩
    rw [e, answer_inc, writeInc_inc, incOf_toNat _ hfits, increment_eq_floor]
  · refine ⟨fun hlt => absurd ((increment_lt_iff_hertz_lt s.config f).mpr hlt) hover.not_gt, fun _ => ⟨?_, ?_⟩⟩
    · rw [e, violate_inc, writeInc_inc, largestIncrement_toNat]
    · rw [e, violate_fault, writeInc_fault, faultWith_ovf]

/-- A frequency operation writes `INC`, `FAULT` and its response alone (R111, R121). -/
theorem exec_frequency_frame {i : Instr} {s t : State} (hi : isFrequencyOp i = true) (h : exec i s = .next t) :
    FrequencyFrame s t := by
  obtain ⟨q, e⟩ | ⟨v, -, e⟩ | ⟨f, e⟩ := exec_frequency_cases hi s <;> rw [h] at e <;> cases e
  · obtain ⟨-, e⟩ | ⟨-, e⟩ := commit_cases q s <;> simp [e, FrequencyFrame, OutsideKept]
  · simp [FrequencyFrame, OutsideKept]
  · simp [FrequencyFrame, OutsideKept]

/-! ### The fixed-point forms -/

theorem fixedPointFrequency_of_gt {s : State} (h : 64 < s.config.updateRate) (f : Frequency) :
    fixedPointFrequency f s = commit (increment s.config f) s :=
  if_pos (decide_eq_true h)

theorem fixedPointFrequency_of_le {s : State} (h : s.config.updateRate ≤ 64) (f : Frequency) :
    fixedPointFrequency f s = violate .rate s := by
  simp [fixedPointFrequency, rateAllowsFixedPoint, h]

/-! ### The classes of a binary32 pattern -/

/-- The state SETF_FLOAT leaves, by the class of its pattern (R113). -/
def floatEffect (s : State) : FloatClass → State
  | .zero => commit 0 s
  | .positive x => commit (increment s.config x) s
  | .negative => violate .ovf (writeInc 0 s)
  | .plusInfinity => violate .ovf (writeInc (largestIncrement s.config) s)
  | .minusInfinity => violate .ovf (writeInc 0 s)
  | .notANumber => violate .ovf s

theorem exec_setfFloat (s : State) (p : Arg) : exec (.setfFloat p) s = .next (floatEffect s (floatClass p)) := by
  rw [exec, execSetfFloat]
  cases floatClass p <;> rfl

theorem floatSign_cases (p : Arg) : floatSign p = 0 ∨ floatSign p = 1 := by
  have := p.isLt
  unfold floatSign
  omega

theorem floatExponent_le (p : Arg) : floatExponent p ≤ 255 := by
  unfold floatExponent
  omega

/-- The class, by the fields as the statements write them (R122). -/
theorem floatClass_by_fields (p : Arg) :
    floatClass p =
      if floatExponent p = 255 then
        if floatFraction p ≠ 0 then .notANumber
        else if floatSign p = 1 then .minusInfinity
        else .plusInfinity
      else if floatExponent p = 0 ∧ floatFraction p = 0 then .zero
      else if floatSign p = 1 then .negative
      else .positive (binary32Magnitude p) :=
  floatClass_eq p

theorem floatClass_of_notANumber {p : Arg} (he : floatExponent p = 255) (hm : floatFraction p ≠ 0) :
    floatClass p = .notANumber := by
  rw [floatClass_by_fields, if_pos he, if_pos hm]

theorem floatClass_of_plusInfinity {p : Arg} (he : floatExponent p = 255) (hm : floatFraction p = 0)
    (hs : floatSign p = 0) : floatClass p = .plusInfinity := by
  rw [floatClass_by_fields, if_pos he, if_neg (not_not.mpr hm), if_neg (by rw [hs]; decide)]

theorem floatClass_of_minusInfinity {p : Arg} (he : floatExponent p = 255) (hm : floatFraction p = 0)
    (hs : floatSign p = 1) : floatClass p = .minusInfinity := by
  rw [floatClass_by_fields, if_pos he, if_neg (not_not.mpr hm), if_pos hs]

/-- A pattern's value is its sign and its magnitude (30_encoding.md R64). -/
theorem floatValue_eq (p : Arg) : floatValue p = (-1) ^ floatSign p * hertz (binary32Magnitude p) := by
  rw [floatValue, hertz, binary32Magnitude, binary32Exponent_toNat, binary32Fraction_toNat, ← floatExponent,
    ← floatFraction]
  split
  · simp
  · rw [Nat.cast_add, Nat.cast_pow, Nat.cast_ofNat, neg_sub]

/-- Only the pattern of zero has magnitude 0: a normal one has its leading bit (R122). -/
theorem hertz_magnitude_pos {p : Arg} (h : ¬ (floatExponent p = 0 ∧ floatFraction p = 0)) :
    0 < hertz (binary32Magnitude p) := by
  have hnum : 0 < (binary32Magnitude p).numerator := by
    rw [binary32Magnitude, binary32Exponent_toNat, binary32Fraction_toNat, ← floatExponent, ← floatFraction]
    split <;> dsimp only <;> omega
  unfold hertz
  positivity

/-- The three classes of a finite pattern, with the sign of its value (R122). -/
theorem floatClass_finite {p : Arg} (he : floatExponent p < 255) :
    (floatClass p = .zero ∧ floatValue p = 0) ∨
      (floatClass p = .negative ∧ floatValue p < 0) ∨
      (floatClass p = .positive (binary32Magnitude p) ∧ floatValue p = hertz (binary32Magnitude p) ∧
        0 < floatValue p) := by
  rw [floatClass_by_fields, if_neg (show ¬ floatExponent p = 255 by omega)]
  by_cases hz : floatExponent p = 0 ∧ floatFraction p = 0
  · refine .inl ⟨if_pos hz, ?_⟩
    simp [floatValue, hz.1, hz.2]
  · have hpos := hertz_magnitude_pos hz
    rw [if_neg hz, floatValue_eq]
    obtain hs | hs := floatSign_cases p
    · refine .inr (.inr ⟨if_neg (by rw [hs]; decide), ?_⟩)
      simpa [hs] using hpos
    · refine .inr (.inl ⟨if_pos hs, ?_⟩)
      simpa [hs] using hpos

theorem floatClass_of_neg {p : Arg} (he : floatExponent p < 255) (hv : floatValue p < 0) :
    floatClass p = .negative := by
  obtain ⟨-, h⟩ | ⟨h, -⟩ | ⟨-, -, h⟩ := floatClass_finite he
  · exact absurd hv (by rw [h]; exact lt_irrefl 0)
  · exact h
  · exact absurd hv h.not_gt

/-- A finite pattern that is not negative, zero of either sign included, is converted exactly (R113). -/
theorem floatEffect_of_nonneg {p : Arg} (he : floatExponent p < 255) (hv : 0 ≤ floatValue p) :
    ∃ x, hertz x = floatValue p ∧ ∀ s, floatEffect s (floatClass p) = commit (increment s.config x) s := by
  obtain ⟨h, hzero⟩ | ⟨-, hneg⟩ | ⟨h, hval, -⟩ := floatClass_finite he
  · exact ⟨⟨0, 0⟩, by simp [hertz, hzero], fun s => by simp [h, floatEffect, increment]⟩
  · exact absurd hneg hv.not_gt
  · exact ⟨_, hval.symm, fun s => by rw [h, floatEffect]⟩

/-! ### Every form at once -/

/-- The forms of one frequency differ in their scaling alone (R123): what is not refused is converted and
committed. -/
theorem exec_of_frequencyOf {c : Config} {i : Instr} {f : ℚ} (hr : ¬ Refused c i) (hf : frequencyOf i = some f) :
    ∃ x, hertz x = f ∧ ∀ s : State, s.config = c → exec i s = .next (commit (increment s.config x) s) := by
  cases i with
  | setfInt a =>
    cases hf
    exact ⟨frequencyOfInt a, by simp [hertz, frequencyOfInt], fun s _ => exec_setfInt s a⟩
  | setfFloat p =>
    rw [frequencyOf] at hf
    split at hf
    next h =>
      cases hf
      obtain ⟨x, hx, e⟩ := floatEffect_of_nonneg h.1 h.2
      exact ⟨x, hx, fun s _ => by rw [exec_setfFloat, e]⟩
    next => cases hf
  | setfQ24n8 a =>
    cases hf
    refine ⟨frequencyOfQ24n8 a, by simp [hertz, frequencyOfQ24n8, div_eq_mul_inv], ?_⟩
    rintro s rfl
    rw [exec_setfQ24n8, fixedPointFrequency_of_gt (not_le.mp hr)]
  | setfQ16n16 a =>
    cases hf
    refine ⟨frequencyOfQ16n16 a, by simp [hertz, frequencyOfQ16n16, div_eq_mul_inv], ?_⟩
    rintro s rfl
    rw [exec_setfQ16n16, fixedPointFrequency_of_gt (not_le.mp hr)]
  | _ => cases hf

theorem exec_commits {i : Instr} {f : ℚ} {s t : State} (hr : ¬ Refused s.config i) (hf : frequencyOf i = some f)
    (h : exec i s = .next t) : Commits f s t := by
  obtain ⟨x, rfl, e⟩ := exec_of_frequencyOf hr hf
  rw [e s rfl] at h
  cases h
  exact commits_increment x s

/-- A refused operation records its violation and does nothing else (R113, R117). -/
theorem exec_of_refused {s : State} {i : Instr} (hr : Refused s.config i) :
    ∃ v, exec i s = .next (violate v s) := by
  cases i with
  | setfFloat p => exact ⟨.ovf, by rw [exec_setfFloat, floatClass_of_notANumber hr.1 hr.2, floatEffect]⟩
  | setfQ24n8 a => exact ⟨.rate, by rw [exec_setfQ24n8, fixedPointFrequency_of_le hr]⟩
  | setfQ16n16 a => exact ⟨.rate, by rw [exec_setfQ16n16, fixedPointFrequency_of_le hr]⟩
  | _ => exact hr.elim

theorem exec_inc_of_refused {s t : State} {i : Instr} (hr : Refused s.config i) (h : exec i s = .next t) :
    t.inc = s.inc := by
  obtain ⟨v, e⟩ := exec_of_refused hr
  rw [h] at e
  cases e
  rfl

/-- The patterns that denote no frequency and are still numbers: negative, or infinite (R122). -/
theorem floatClass_of_frequencyOf_none {p : Arg} (hf : frequencyOf (.setfFloat p) = none)
    (hnan : ¬ (floatExponent p = 255 ∧ floatFraction p ≠ 0)) :
    floatClass p = .negative ∨ floatClass p = .plusInfinity ∨ floatClass p = .minusInfinity := by
  obtain he | he := (floatExponent_le p).lt_or_eq
  · refine .inl (floatClass_of_neg he (not_le.mp fun hv => ?_))
    simp [frequencyOf, he, hv] at hf
  · have hm : floatFraction p = 0 := by_contra fun hm => hnan ⟨he, hm⟩
    exact .inr ((floatSign_cases p).imp (floatClass_of_plusInfinity he hm) (floatClass_of_minusInfinity he hm))

/-- An operation that is not refused writes an increment fixed by the configuration and the argument (R121). -/
theorem exec_inc_congr {i : Instr} (hi : isFrequencyOp i = true) {s u t v : State} (hc : s.config = u.config)
    (hr : ¬ Refused s.config i) (ht : exec i s = .next t) (hv : exec i u = .next v) : t.inc = v.inc := by
  cases hf : frequencyOf i with
  | some f =>
    obtain ⟨x, -, e⟩ := exec_of_frequencyOf hr hf
    rw [e s rfl] at ht
    rw [e u hc.symm] at hv
    cases ht
    cases hv
    rw [hc, commit_inc_congr _ hc]
  | none =>
    cases i with
    | setfFloat p =>
      rw [exec_setfFloat] at ht hv
      cases ht
      cases hv
      obtain h | h | h := floatClass_of_frequencyOf_none hf hr <;> rw [h]
      · rfl
      · exact congrArg largestIncrement hc
      · rfl
    | setfInt _ => cases hf
    | setfQ24n8 _ => cases hf
    | setfQ16n16 _ => cases hf
    | _ => cases hi

/-- A frequency below one unit of `INC` gives 0 and no fault (R119). -/
theorem exec_of_below_unit {s : State} {i : Instr} {f : ℚ} (hr : ¬ Refused s.config i) (hf : frequencyOf i = some f)
    (hlt : f < (s.config.updateRate : ℚ) / 2 ^ s.config.width) :
    ∃ t, exec i s = .next t ∧ t.inc = 0 ∧ t.fault = s.fault := by
  obtain ⟨x, rfl, e⟩ := exec_of_frequencyOf hr hf
  refine ⟨_, e s rfl, ?_⟩
  rw [increment_eq_zero hlt, commit_zero]
  exact ⟨rfl, rfl⟩

/-- Frequency 0 is one below a unit of `INC` (R119). -/
theorem exec_of_zero {s : State} {i : Instr} (hr : ¬ Refused s.config i) (hf : frequencyOf i = some 0) :
    ∃ t, exec i s = .next t ∧ t.inc = 0 ∧ t.fault = s.fault :=
  exec_of_below_unit hr hf (div_pos (updateRate_cast_pos s.config) (by positivity))

/-- A fixed-point form, by the update rate (R114, R115, R117). -/
theorem exec_fixedPoint {s : State} {i : Instr} {x : Frequency}
    (hexec : exec i s = .next (fixedPointFrequency x s)) (hi : isFrequencyOp i = true) {f : ℚ}
    (hr : Refused s.config i ↔ s.config.updateRate ≤ 64) (hf : frequencyOf i = some f) :
    ∃ t, exec i s = .next t ∧ FrequencyFrame s t ∧ (64 < s.config.updateRate → Commits f s t) ∧
      (s.config.updateRate ≤ 64 → t.inc = s.inc ∧ t.fault = s.fault ||| 0b0010#4) := by
  refine ⟨_, hexec, exec_frequency_frame hi hexec, fun h => exec_commits (by rw [hr]; omega) hf hexec, fun h => ?_⟩
  rw [fixedPointFrequency_of_le h]
  exact ⟨rfl, faultWith_rate s.fault⟩

/-! ### The statements -/

/-- Settles O35: SETF_INT denotes a frequency whatever its argument and is never refused. -/
theorem setfIntCommitsTheExactIncrement : Obligations.SetfIntCommitsTheExactIncrement := by
  intro s a
  have hexec := exec_setfInt s a
  exact ⟨_, hexec, exec_commits id rfl hexec, exec_frequency_frame rfl hexec⟩

/-- Settles O36: the class of the pattern, read off its fields and the sign of its value. -/
theorem setfFloatActsByTheClassOfThePattern : Obligations.SetfFloatActsByTheClassOfThePattern := by
  intro s p
  have hexec := exec_setfFloat s p
  refine ⟨_, hexec, exec_frequency_frame rfl hexec, fun he hv => ?nonneg, fun he hv => ?negative,
    fun he hm hs => ?plusInfinity, fun he hm hs => ?minusInfinity, fun he hm => ?notANumber⟩
  case nonneg => exact exec_commits (i := .setfFloat p) (fun h => he.ne h.1) (if_pos ⟨he, hv⟩) hexec
  case negative =>
    rw [floatClass_of_neg he hv]
    exact ⟨rfl, faultWith_ovf s.fault⟩
  case plusInfinity =>
    rw [floatClass_of_plusInfinity he hm hs]
    exact ⟨largestIncrement_toNat s.config, faultWith_ovf s.fault⟩
  case minusInfinity =>
    rw [floatClass_of_minusInfinity he hm hs]
    exact ⟨rfl, faultWith_ovf s.fault⟩
  case notANumber =>
    rw [floatClass_of_notANumber he hm]
    exact ⟨rfl, faultWith_ovf s.fault⟩

/-- Settles O37: the fixed-point form with 8 fractional bits. -/
theorem setfQ24n8CommitsTheExactIncrement : Obligations.SetfQ24n8CommitsTheExactIncrement :=
  fun s raw => exec_fixedPoint (exec_setfQ24n8 s raw) rfl Iff.rfl rfl

/-- Settles O38: the fixed-point form with 16 fractional bits. -/
theorem setfQ16n16CommitsTheExactIncrement : Obligations.SetfQ16n16CommitsTheExactIncrement :=
  fun s raw => exec_fixedPoint (exec_setfQ16n16 s raw) rfl Iff.rfl rfl

/-- Settles O40: frequency 0, in the forms that denote it, is below `R / 2^W`, where the quotient floors to 0. -/
theorem zeroFrequencyGivesZeroIncrement : Obligations.ZeroFrequencyGivesZeroIncrement := by
  refine ⟨fun s => ?_, fun s hrate => ?_, fun s i f hr hf hlt => exec_of_below_unit hr hf hlt⟩
  · have plusZero : frequencyOf (.setfFloat 0x00000000) = some 0 := by
      simp [frequencyOf, floatValue, floatExponent, floatFraction]
    have minusZero : frequencyOf (.setfFloat 0x80000000) = some 0 := by
      simp [frequencyOf, floatValue, floatExponent, floatFraction]
    obtain ⟨t, ht, htinc, htfault⟩ := exec_of_zero (s := s) (i := .setfInt 0) id (by simp [frequencyOf])
    obtain ⟨u, hu, huinc, hufault⟩ := exec_of_zero (s := s) (by simp [Refused, floatExponent]) plusZero
    obtain ⟨v, hv, hvinc, hvfault⟩ := exec_of_zero (s := s) (by simp [Refused, floatExponent]) minusZero
    exact ⟨t, u, v, ht, hu, hv, htinc, huinc, hvinc, htfault, hufault, hvfault⟩
  · obtain ⟨t, ht, htinc, htfault⟩ :=
      exec_of_zero (s := s) (i := .setfQ24n8 0) hrate.not_ge (by simp [frequencyOf])
    obtain ⟨u, hu, huinc, hufault⟩ :=
      exec_of_zero (s := s) (i := .setfQ16n16 0) hrate.not_ge (by simp [frequencyOf])
    exact ⟨t, u, ht, hu, htinc, huinc, htfault, hufault⟩

/-- Settles O42: the increment written is fixed by the configuration and the argument, and a refused operation
writes none. -/
theorem frequencyOperationsDoNotReadTheRegisters : Obligations.FrequencyOperationsDoNotReadTheRegisters := by
  intro i s u hi hc
  obtain ⟨t, ht⟩ := exec_total i s
  obtain ⟨v, hv⟩ := exec_total i u
  obtain ⟨hphase, -⟩ := exec_frequency_frame hi ht
  obtain ⟨hphase', -⟩ := exec_frequency_frame hi hv
  exact ⟨t, v, ht, hv, hphase, hphase', fun hr => exec_inc_congr hi hc hr ht hv,
    fun hr => ⟨exec_inc_of_refused hr ht, exec_inc_of_refused (hc ▸ hr) hv⟩⟩

end Sys2Proof.FrequencyConversion
end

section
/-! PROOFS. Violations: every operation completes (60_exceptions.md R130), which cause it records (R131, R132), that
it is one cause at most (R134), and that the flags stay until reset (R137). -/

namespace Sys2Proof.Violations

open Sys2Proof Sys2Proof.Machine Sys2Proof.Spec
open Sys2Proof.Encoding (decode_case opField_wordOf reservedOpcodesSetTheFlagAndNothingElse)
open Sys2Proof.SampleGeneration (exec_total step_total)
open Sys2Proof.FrequencyConversion

/-! ### The flags -/

/-- The flag a violation sets, by the bit of the table of causes (R131, R132). -/
theorem faultWith_eq (v : Violation) (fault : BitVec 4) : faultWith v fault = fault ||| (1#4 <<< causeBit v) := by
  cases v <;> rfl

/-- The causes have a bit each: a violation sets its own and keeps the others (R132). -/
theorem faultWith_getLsbD (v w : Violation) (fault : BitVec 4) :
    (faultWith v fault).getLsbD (causeBit w) = (fault.getLsbD (causeBit w) || decide (v = w)) := by
  rw [faultWith_eq, BitVec.getLsbD_or]
  congr 1
  cases v <;> cases w <;> rfl

/-! ### The causes -/

/-- Cause 4 is raised by the reserved rows alone (R134). -/
theorem raises_op_iff (c : Config) (i : Instr) : Raises c i .op ↔ isReservedRow i = true := by
  cases i <;> simp [Raises, isReservedRow]

/-- The two causes of a fixed-point form exclude each other by the update rate (R134). -/
theorem raises_unique {c : Config} {i : Instr} {v w : Violation} (hv : Raises c i v) (hw : Raises c i w) :
    v = w := by
  have fixedPoint {large : Prop}
      (hv : (v = .rate ∧ c.updateRate ≤ 64) ∨ (v = .ovf ∧ 64 < c.updateRate ∧ large))
      (hw : (w = .rate ∧ c.updateRate ≤ 64) ∨ (w = .ovf ∧ 64 < c.updateRate ∧ large)) : v = w := by
    obtain ⟨rfl, hle⟩ | ⟨rfl, hgt, -⟩ := hv <;> obtain ⟨rfl, hle'⟩ | ⟨rfl, hgt', -⟩ := hw
    · rfl
    · exact absurd hle hgt'.not_ge
    · exact absurd hle' hgt.not_ge
    · rfl
  cases i with
  | nextSample => exact hv.elim
  | getWaveform => exact hv.elim
  | setPulseWidth _ => exact hv.elim
  | setWaveform _ => exact hv.1.trans hw.1.symm
  | setfInt _ => exact hv.1.trans hw.1.symm
  | setfFloat _ => exact hv.1.trans hw.1.symm
  | setfQ24n8 _ => exact fixedPoint hv hw
  | setfQ16n16 _ => exact fixedPoint hv hw
  | reserved0 => exact Eq.trans hv hw.symm
  | reserved5 => exact Eq.trans hv hw.symm
  | reserved6to7 _ => exact Eq.trans hv hw.symm
  | reservedCtoF _ => exact Eq.trans hv hw.symm

/-! ### A frequency too large for `INC`, in whole numbers -/

/-- `q` does not fit `W` bits exactly when `R <= f` (R116), for `f = n / 2^d` with `0 <= d`. -/
theorem le_increment_iff_of_natExponent (c : Config) (n d : ℕ) :
    2 ^ c.width ≤ increment c ⟨n, d⟩ ↔ c.updateRate * 2 ^ d ≤ n := by
  rw [← not_lt, increment_lt_iff, not_lt]
  simp

/-- The magnitude of a binary32 pattern does not fit exactly when it reaches `R` (R116, R122). -/
theorem le_increment_magnitude_iff (c : Config) (p : Arg) :
    2 ^ c.width ≤ increment c (binary32Magnitude p) ↔ magnitudeReaches c.updateRate p := by
  rw [binary32Magnitude, binary32Exponent_toNat, binary32Fraction_toNat, magnitudeReaches]
  generalize p.toNat / 2 ^ 23 % 2 ^ 8 = e
  generalize p.toNat % 2 ^ 23 = m
  by_cases h0 : e = 0
  · simpa [h0] using le_increment_iff_of_natExponent c m 149
  · by_cases hlt : e < 150
    · have hexp : (150 : ℤ) - e = (150 - e : ℕ) := by omega
      simp only [h0, hlt, if_true, if_false, hexp]
      exact le_increment_iff_of_natExponent c (2 ^ 23 + m) (150 - e)
    · have hmul : (-(150 - (e : ℤ))).toNat = e - 150 := by omega
      have hdiv : (150 - (e : ℤ)).toNat = 0 := by omega
      rw [← not_lt, increment_lt_iff, not_lt]
      simp only [h0, hlt, if_false, hmul, hdiv, pow_zero, mul_one]

/-- The infinities and the patterns that are no number are those from `0x7F800000` up, sign aside (R122). -/
theorem floatExponent_eq_iff (p : Arg) : floatExponent p = 255 ↔ 0x7F800000 ≤ p.toNat % 2 ^ 31 := by
  unfold floatExponent
  omega

/-- Zero of either sign reaches no rate (R113). -/
theorem not_magnitudeReaches_zero (c : Config) {p : Arg} (he : floatExponent p = 0) (hm : floatFraction p = 0) :
    ¬ magnitudeReaches c.updateRate p := by
  have := c.updateRate_pos
  rw [floatExponent] at he
  rw [floatFraction] at hm
  rw [magnitudeReaches, he, hm, if_pos rfl]
  omega

/-- A pattern with the sign bit is above `0x80000000` unless it is zero (R64, R122). -/
theorem two_pow_lt_iff_negative (p : Arg) :
    2 ^ 31 < p.toNat ↔ floatSign p = 1 ∧ ¬ (floatExponent p = 0 ∧ floatFraction p = 0) := by
  have := p.isLt
  unfold floatSign floatExponent floatFraction
  omega

/-! ### What an operation records -/

/-- `FAULT` after an operation: the flag of a cause it raises is set, or it raises none and `FAULT` is kept
(R131, R132). -/
def RecordsItsCause (i : Instr) (s t : State) : Prop :=
  (∃ v, Raises s.config i v ∧ t.fault = faultWith v s.fault) ∨ (InContract s.config i ∧ t.fault = s.fault)

/-- A violation of a cause the operation raises; `u` is the state with the effect on the data registers. -/
theorem recordsItsCause_violate {i : Instr} {v : Violation} {s u : State} (hr : Raises s.config i v)
    (hu : u.fault = s.fault) : RecordsItsCause i s (violate v u) :=
  .inl ⟨v, hr, by rw [violate_fault, hu]⟩

/-- A commit records an overflow exactly when `q` does not fit (R116). -/
theorem recordsItsCause_commit {i : Instr} {q : ℕ} {s : State}
    (hr : ∀ v, Raises s.config i v ↔ v = .ovf ∧ 2 ^ s.config.width ≤ q) : RecordsItsCause i s (commit q s) := by
  obtain ⟨hfits, e⟩ | ⟨hover, e⟩ := commit_cases q s
  · refine .inr ⟨fun v hv => absurd hfits ((hr v).mp hv).2.not_gt, ?_⟩
    rw [e, answer_fault, writeInc_fault]
  · rw [e]
    exact recordsItsCause_violate ((hr .ovf).mpr ⟨rfl, hover⟩) rfl

/-- A fixed-point form looks at the update rate first (R117, R134). -/
theorem recordsItsCause_fixedPoint {i : Instr} {n d : ℕ} {s : State}
    (hr : ∀ v, Raises s.config i v ↔ (v = .rate ∧ s.config.updateRate ≤ 64) ∨
      (v = .ovf ∧ 64 < s.config.updateRate ∧ s.config.updateRate * 2 ^ d ≤ n)) :
    RecordsItsCause i s (fixedPointFrequency ⟨n, d⟩ s) := by
  obtain hle | hgt := le_or_gt s.config.updateRate 64
  · rw [fixedPointFrequency_of_le hle]
    exact recordsItsCause_violate ((hr .rate).mpr (.inl ⟨rfl, hle⟩)) rfl
  · rw [fixedPointFrequency_of_gt hgt]
    refine recordsItsCause_commit fun v => ?_
    rw [hr, le_increment_iff_of_natExponent]
    simp [hgt, hgt.not_ge]

/-- SETF_FLOAT records an overflow for the classes that denote no frequency and for one too large (R113, R122). -/
theorem recordsItsCause_setfFloat (p : Arg) (s : State) :
    RecordsItsCause (.setfFloat p) s (floatEffect s (floatClass p)) := by
  rw [floatClass_by_fields]
  by_cases he : floatExponent p = 255
  · have hr : Raises s.config (.setfFloat p) .ovf := ⟨rfl, .inl ((floatExponent_eq_iff p).mp he)⟩
    rw [if_pos he]
    split
    · exact recordsItsCause_violate hr rfl
    · split
      · exact recordsItsCause_violate hr rfl
      · exact recordsItsCause_violate hr rfl
  · have hfinite : ¬ 0x7F800000 ≤ p.toNat % 2 ^ 31 := mt (floatExponent_eq_iff p).mpr he
    rw [if_neg he]
    split
    next hz =>
      have hneg : ¬ 2 ^ 31 < p.toNat := fun h => ((two_pow_lt_iff_negative p).mp h).2 hz
      have hreach := not_magnitudeReaches_zero s.config hz.1 hz.2
      refine recordsItsCause_commit fun v => ?_
      simp only [Raises, hfinite, hneg, hreach, or_false, and_false, (Nat.two_pow_pos _).not_ge]
    next hz =>
      split
      next hs => exact recordsItsCause_violate ⟨rfl, .inr (.inl ((two_pow_lt_iff_negative p).mpr ⟨hs, hz⟩))⟩ rfl
      next hs =>
        have hneg : ¬ 2 ^ 31 < p.toNat := fun h => hs ((two_pow_lt_iff_negative p).mp h).1
        refine recordsItsCause_commit fun v => ?_
        rw [le_increment_magnitude_iff]
        simp only [Raises, hfinite, hneg, false_or]

/-- Every operation records exactly the cause it raises (R131, R132). -/
theorem exec_recordsItsCause {i : Instr} {s t : State} (h : exec i s = .next t) : RecordsItsCause i s t := by
  cases i with
  | nextSample => cases h; exact .inr ⟨fun _ hv => hv, rfl⟩
  | getWaveform => cases h; exact .inr ⟨fun _ hv => hv, rfl⟩
  | setPulseWidth _ => cases h; exact .inr ⟨fun _ hv => hv, rfl⟩
  | setWaveform sel =>
    obtain hle | hgt := le_or_gt sel.toNat 3
    · rw [exec_setWaveform_of_le s hle] at h; cases h
      exact .inr ⟨fun _ ⟨_, hsel⟩ => absurd hle (Nat.not_le.mpr hsel), rfl⟩
    · rw [exec_setWaveform_of_gt s hgt] at h; cases h
      exact recordsItsCause_violate ⟨rfl, hgt⟩ rfl
  | setfInt a =>
    cases h
    refine recordsItsCause_commit fun v => ?_
    rw [frequencyOfInt, ← Nat.cast_zero, le_increment_iff_of_natExponent]
    simp [Raises]
  | setfFloat p =>
    rw [exec_setfFloat] at h; cases h
    exact recordsItsCause_setfFloat p s
  | setfQ24n8 a => cases h; exact recordsItsCause_fixedPoint fun _ => Iff.rfl
  | setfQ16n16 a => cases h; exact recordsItsCause_fixedPoint fun _ => Iff.rfl
  | reserved0 => cases h; exact recordsItsCause_violate rfl rfl
  | reserved5 => cases h; exact recordsItsCause_violate rfl rfl
  | reserved6to7 _ => cases h; exact recordsItsCause_violate rfl rfl
  | reservedCtoF _ => cases h; exact recordsItsCause_violate rfl rfl

/-- There is no other cause than the one raised (R134). -/
theorem exec_fault_of_raises {i : Instr} {v : Violation} {s t : State} (h : exec i s = .next t)
    (hv : Raises s.config i v) : t.fault = faultWith v s.fault := by
  obtain ⟨w, hw, e⟩ | ⟨hin, -⟩ := exec_recordsItsCause h
  · rw [e, raises_unique hw hv]
  · exact absurd hv (hin v)

theorem exec_fault_of_inContract {i : Instr} {s t : State} (h : exec i s = .next t)
    (hin : InContract s.config i) : t.fault = s.fault := by
  obtain ⟨w, hw, -⟩ | ⟨-, e⟩ := exec_recordsItsCause h
  · exact absurd hw (hin w)
  · exact e

/-- No operation clears a flag (R137). -/
theorem exec_keeps_flags {i : Instr} {s t : State} (h : exec i s = .next t) : s.fault ||| t.fault = t.fault := by
  obtain ⟨v, -, e⟩ | ⟨-, e⟩ := exec_recordsItsCause h
  · rw [e, faultWith, ← BitVec.or_assoc, BitVec.or_self]
  · rw [e, BitVec.or_self]

/-- A valid opcode never changes bit 3 (R134). -/
theorem exec_op_flag_of_not_reserved {i : Instr} {s t : State} (h : exec i s = .next t)
    (hi : ¬ isReservedRow i = true) : t.fault.getLsbD 3 = s.fault.getLsbD 3 := by
  obtain ⟨v, hv, e⟩ | ⟨-, e⟩ := exec_recordsItsCause h
  · have hne : v ≠ .op := by
      rintro rfl
      exact hi ((raises_op_iff _ _).mp hv)
    have hbit := faultWith_getLsbD v .op s.fault
    rw [decide_eq_false hne, Bool.or_false] at hbit
    rw [e]
    exact hbit
  · rw [e]

/-! ### Steps -/

/-- A step that is no reset leaves the registers alone, or performs one operation on them (20_memory.md R47). -/
theorem step_performs {s t : State} (h : step s = .next t) (hrst : ∀ p ∈ s.inputs.head?, p.rst = false) :
    SameRegisters s t ∨ ∃ i u v, SameRegisters s u ∧ exec i u = .next v ∧ SameRegisters v t := by
  cases step_case h with
  | idle _ hc => exact .inl hc.keeps_registers
  | reset _ hc =>
    cases hc with
    | reset p later hin hr => exact absurd (hrst p (by simp [hin])) (by simp [hr])
  | command word u _ hc hv => exact .inr ⟨_, u, t, hc.keeps_registers, hv, rfl, rfl, rfl, rfl, rfl, rfl, rfl⟩
  | sample u v hc hv => exact .inr ⟨_, u, v, hc.keeps_registers, hv, rfl, rfl, rfl, rfl, rfl, rfl, rfl⟩

/-- No step but a reset clears a flag (R137). -/
theorem step_keeps_flags {s t : State} (h : step s = .next t) (hrst : ∀ p ∈ s.inputs.head?, p.rst = false) :
    s.fault ||| t.fault = t.fault := by
  obtain ⟨-, -, -, -, -, -, e⟩ | ⟨i, u, v, ⟨-, -, -, -, -, -, hu⟩, hv, -, -, -, -, -, -, ht⟩ :=
    step_performs h hrst
  · rw [e, BitVec.or_self]
  · rw [← hu, ht]
    exact exec_keeps_flags hv

/-! ### The statements -/

/-- Settles O43: no operation and no step has a branch that stops. -/
theorem everyOperationCompletes : Obligations.EveryOperationCompletes :=
  ⟨step_total, fun w => exec_total (decode w), exec_total⟩

/-- Settles O45: an operation records its one cause, and a flag is only ever added until reset. -/
theorem faultBitsStickUntilReset : Obligations.FaultBitsStickUntilReset := by
  refine ⟨fun i s => ?operation, fun s hrst => ?noReset, fun s p later hin hr => ?reset⟩
  case operation =>
    obtain ⟨t, ht⟩ := exec_total i s
    refine ⟨t, ht, fun v hv => ?_, exec_fault_of_inContract ht⟩
    rw [exec_fault_of_raises ht hv, faultWith_eq]
  case noReset =>
    obtain ⟨t, ht⟩ := step_total s
    exact ⟨t, ht, step_keeps_flags ht hrst⟩
  case reset => exact ⟨_, step_rst hin hr, resetRegisters_fault _⟩

/-- Settles O46: the decoder separates the reserved rows, the only ones that raise cause 4, and the update rate
separates the two causes of a fixed-point form. -/
theorem violationsHaveOnePriority : Obligations.ViolationsHaveOnePriority := by
  refine ⟨fun s op arg h => ?reserved, fun s op arg h => ?valid, fun s a hle => ?rate,
    fun c i v w => raises_unique⟩
  case reserved => exact ⟨_, reservedOpcodesSetTheFlagAndNothingElse.1 s op arg h, rfl⟩
  case valid =>
    obtain ⟨t, ht⟩ := exec_total (decode (wordOf op arg)) s
    refine ⟨t, ht, exec_op_flag_of_not_reserved ht fun hrow => h ?_⟩
    rwa [(decode_case _).isReservedRow_iff, opField_wordOf] at hrow
  case rate =>
    have hexec (f : Frequency) := fixedPointFrequency_of_le hle f
    refine ⟨violate .rate s, violate .rate s, ?_, ?_, faultWith_rate _, faultWith_rate _, rfl, rfl⟩
    · rw [exec_setfQ24n8, hexec]
    · rw [exec_setfQ16n16, hexec]

end Sys2Proof.Violations
end

section
/-! PROOFS. Encoding and decoding against each other, and the opcode map (30_encoding.md R60 to R69). -/

namespace Sys2Proof.CanonicalWords

open Sys2Proof Sys2Proof.Spec
open Sys2Proof.Encoding

/-! ### Words and their fields -/

/-- A word meets another field by field. -/
theorem opWord_and_opWord (op₁ op₂ : Opcode) (arg₁ arg₂ : Arg) :
    opWord op₁ arg₁ &&& opWord op₂ arg₂ = opWord (op₁ &&& op₂) (arg₁ &&& arg₂) := by
  simp only [opWord]
  exact BitVec.and_append

/-- The threshold stands whole in the low byte of its canonical argument (R67). -/
theorem lowByte_zeroExtend (b : BitVec 8) : (b.zeroExtend 32).extractLsb' 0 8 = b := by
  apply BitVec.eq_of_toNat_eq
  simpa using b.isLt

/-- Widening the low byte again clears the bits above it and no other (R67). -/
theorem zeroExtend_lowByte (arg : Arg) : (arg.extractLsb' 0 8).zeroExtend 32 = arg &&& 0xFF := by
  apply BitVec.eq_of_toNat_eq
  have hmask : arg.toNat &&& 255 = arg.toNat % 2 ^ 8 := Nat.and_two_pow_sub_one_eq_mod arg.toNat 8
  simp [hmask]
  omega

/-! ### Decode after encode -/

/-- The two rows of several opcodes: a well-formed term's opcode decodes to its own term (R69). -/
theorem decode_opWord_reserved6to7 {op : Opcode} (h : (Instr.reserved6to7 op).wf = true) (arg : Arg) :
    decode (opWord op arg) = .reserved6to7 op := by
  rw [Instr.wf, Bool.or_eq_true, beq_iff_eq, beq_iff_eq] at h
  obtain rfl | rfl := h <;> simp [decode]

theorem decode_opWord_reservedCtoF {op : Opcode} (h : (Instr.reservedCtoF op).wf = true) (arg : Arg) :
    decode (opWord op arg) = .reservedCtoF op := by
  simp only [Instr.wf, Bool.or_eq_true, beq_iff_eq] at h
  obtain ((rfl | rfl) | rfl) | rfl := h <;> simp [decode]

/-- The decoder reads back what the encoder wrote (R60 to R69). -/
theorem decode_encode {i : Instr} (h : i.wf = true) : decode (encode i) = i := by
  cases i with
  | setPulseWidth b => simp [encode, decode, lowByte_zeroExtend]
  | reserved6to7 op => exact decode_opWord_reserved6to7 h 0
  | reservedCtoF op => exact decode_opWord_reservedCtoF h 0
  | _ => simp [encode, decode]

/-! ### Encode after decode -/

/-- The canonical word keeps the opcode and masks the argument: whole, the low byte, or nothing (R61, R67, R68). -/
theorem encode_of_decodeCase {w : OpWord} {i : Instr} (hi : DecodeCase w i) :
    ∃ mask : Arg, encode i = opWord (opField w) (argField w &&& mask) := by
  cases hi with
  | setPulseWidth h => exact ⟨0xFF, by rw [encode, h, zeroExtend_lowByte]⟩
  | setWaveform h => exact ⟨BitVec.allOnes 32, by rw [encode, h, BitVec.and_allOnes]⟩
  | setfInt h => exact ⟨BitVec.allOnes 32, by rw [encode, h, BitVec.and_allOnes]⟩
  | setfFloat h => exact ⟨BitVec.allOnes 32, by rw [encode, h, BitVec.and_allOnes]⟩
  | setfQ24n8 h => exact ⟨BitVec.allOnes 32, by rw [encode, h, BitVec.and_allOnes]⟩
  | setfQ16n16 h => exact ⟨BitVec.allOnes 32, by rw [encode, h, BitVec.and_allOnes]⟩
  | reserved6to7 _ => exact ⟨0, by rw [encode]; simp⟩
  | reservedCtoF _ => exact ⟨0, by rw [encode]; simp⟩
  | _ h => exact ⟨0, by rw [encode, h]; simp⟩

theorem encode_decode (w : OpWord) : ∃ mask : Arg, encode (decode w) = opWord (opField w) (argField w &&& mask) :=
  encode_of_decodeCase (decode_case w)

/-! ### The statements -/

/-- Settles O11, by the rows of the opcode table. -/
theorem decodeOfEncodeIsTheOperation : Obligations.DecodeOfEncodeIsTheOperation :=
  fun _ => decode_encode

/-- Settles O13: the canonical word masks the argument and nothing else. -/
theorem canonicalWordIsTheSameOperation : Obligations.CanonicalWordIsTheSameOperation := by
  intro w
  obtain ⟨mask, h⟩ := encode_decode w
  refine ⟨decode_encode (decode_case w).wf, ?_, ?_⟩
  · rw [h, opField_opWord]
  · calc encode (decode w) &&& w
        = opWord (opField w) (argField w &&& mask) &&& opWord (opField w) (argField w) := by rw [h, opWord_fields]
      _ = opWord (opField w) (argField w &&& mask) := by
        rw [opWord_and_opWord, BitVec.and_self, BitVec.and_comm, ← BitVec.and_assoc, BitVec.and_self]
      _ = encode (decode w) := h.symm

/-- Settles O9: the word `{op, arg}` has the fields `op` and `arg`, and the decoder's table is the spec's. -/
theorem opcodeMapIsTheSpecs : Obligations.OpcodeMapIsTheSpecs := by
  intro arg
  simp [decode]

/-- Settles O10, word by word. -/
theorem wordsOfTheSpecDecode : Obligations.WordsOfTheSpecDecode := by
  unfold Obligations.WordsOfTheSpecDecode
  decide

end Sys2Proof.CanonicalWords
end

section
/-! PROOFS. What every operation and every step keeps: the invariant, the registers an operation does not write, the
parameters, and everything else than `FAULT` from `FAULT` (10_state.md sections 1 to 4, 60_exceptions.md section 1). -/

namespace Sys2Proof.Preservation

open Sys2Proof Sys2Proof.Machine Sys2Proof.Spec
open Sys2Proof.SampleGeneration (exec_total step_total exec_lfsr)
open Sys2Proof.Configuration (exec_wave)
open Sys2Proof.Encoding (exec_of_isReservedRow)
open Sys2Proof.FrequencyConversion

/-! ### What holds along a run -/

/-- What every step keeps, every run keeps, and every run completes. -/
theorem run_keeps {P : State → Prop} (hstep : ∀ s t, P s → step s = .next t → P t) (n : ℕ) {s : State} (hs : P s) :
    ∃ t, run n s = .next t ∧ P t := by
  induction n generalizing s with
  | zero => exact ⟨s, rfl, hs⟩
  | succ n ih =>
    obtain ⟨u, hu⟩ := step_total s
    rw [run_succ n hu]
    exact ih (hstep s u hs hu)

/-! ### The invariant -/

/-- Every operation keeps `PHASE` and `INC` inside `W` bits and the noise register non-zero (10_state.md R21, R22,
R32). -/
theorem exec_keeps_inv {i : Instr} {s t : State} (hs : s.Inv) (h : exec i s = .next t) : t.Inv := by
  obtain ⟨hphase, hinc, hlfsr⟩ := hs
  cases exec_effect h with
  | sample => exact ⟨advancedPhase_lt _ _ _, hinc, lfsrAfter_ne_zero _ hlfsr⟩
  | commit _ hi q =>
    obtain ⟨ephase, -, -, elfsr, -, econfig, -⟩ := exec_frequency_frame hi h
    refine ⟨?_, ?_, elfsr ▸ hlfsr⟩
    · rwa [ephase, econfig]
    · rw [econfig]
      exact commit_inc_lt q s
  | clamp _ _ v hv =>
    have hpos := Nat.two_pow_pos s.config.width
    refine ⟨hphase, ?_, hlfsr⟩
    simp only [violate_inc, writeInc_inc, violate_config, writeInc_config]
    obtain rfl | rfl := hv
    · exact hpos
    · rw [largestIncrement_toNat]
      omega
  | _ => exact ⟨hphase, hinc, hlfsr⟩

/-- The passing of an instant keeps the invariant: it writes no register. -/
theorem eventCase_keeps_inv {e : PortEvent} {s u : State} (hs : s.Inv) (h : EventCase s e u) : u.Inv := by
  obtain ⟨hconfig, hphase, hinc, -, -, hlfsr, -⟩ := h.keeps_registers
  rwa [State.Inv, hconfig, hphase, hinc, hlfsr]

/-- The reset values meet the invariant: the seed is not 0 (00_scope.md R9). -/
theorem resetRegisters_inv (s : State) : (resetRegisters s).Inv :=
  ⟨Nat.two_pow_pos _, Nat.two_pow_pos _, s.config.noiseSeed_ne_zero⟩

theorem step_keeps_inv {s t : State} (hs : s.Inv) (h : step s = .next t) : t.Inv := by
  cases step_case h with
  | idle _ hc => exact eventCase_keeps_inv hs hc
  | reset u _ => exact resetRegisters_inv u
  | command _ _ _ hc e => exact exec_keeps_inv (eventCase_keeps_inv hs hc) e
  | sample _ _ hc e =>
    have hinv := exec_keeps_inv (eventCase_keeps_inv hs hc) e
    exact hinv

/-! ### Which operation writes which register (10_state.md section 1) -/

theorem exec_phase {i : Instr} {s t : State} (h : exec i s = .next t) : t.phase = s.phase ∨ i = .nextSample := by
  cases exec_effect h with
  | sample => exact .inr rfl
  | commit _ hi _ => exact .inl (exec_frequency_frame hi h).1
  | _ => exact .inl rfl

theorem exec_inc {i : Instr} {s t : State} (h : exec i s = .next t) : t.inc = s.inc ∨ isFrequencyOp i = true := by
  cases exec_effect h with
  | commit _ hi _ => exact .inr hi
  | clamp _ hi _ _ => exact .inr hi
  | _ => exact .inl rfl

theorem exec_pw {i : Instr} {s t : State} (h : exec i s = .next t) :
    t.pw = s.pw ∨ ∃ p, i = .setPulseWidth p := by
  cases exec_effect h with
  | threshold p => exact .inr ⟨p, rfl⟩
  | commit _ hi _ =>
    obtain ⟨-, -, hpw, -⟩ := exec_frequency_frame hi h
    exact .inl hpw
  | _ => exact .inl rfl

/-- Three operations raise no cause (60_exceptions.md section 1). -/
theorem exec_fault {i : Instr} {s t : State} (h : exec i s = .next t) :
    t.fault = s.fault ∨ (i ≠ .nextSample ∧ i ≠ .getWaveform ∧ ∀ p, i ≠ .setPulseWidth p) := by
  have frequency (hi : isFrequencyOp i = true) :
      i ≠ .nextSample ∧ i ≠ .getWaveform ∧ ∀ p, i ≠ .setPulseWidth p :=
    ⟨by rintro rfl; simp [isFrequencyOp] at hi, by rintro rfl; simp [isFrequencyOp] at hi,
      by rintro _ rfl; simp [isFrequencyOp] at hi⟩
  cases exec_effect h with
  | commit _ hi _ => exact .inr (frequency hi)
  | clamp _ hi _ _ => exact .inr (frequency hi)
  | record _ h1 h2 h3 _ => exact .inr ⟨h1, h2, h3⟩
  | _ => exact .inl rfl

/-- A step that performs no frequency operation and is no reset keeps `INC`. -/
theorem step_inc {s t : State} (h : step s = .next t)
    (hp : ∀ p ∈ s.inputs.head?, p.rst = false ∧ ∀ w ∈ p.cmd, isFrequencyOp (decode w) = false) :
    t.inc = s.inc := by
  have performed {e : PortEvent} {i : Instr} {u v : State} (hc : EventCase s e u) (hv : exec i u = .next v)
      (hi : isFrequencyOp i = false) : v.inc = s.inc := by
    obtain ⟨-, -, hinc, -⟩ := hc.keeps_registers
    rw [← hinc]
    exact (exec_inc hv).resolve_right (by simp [hi])
  cases step_case h with
  | idle _ hc =>
    obtain ⟨-, -, hinc, -⟩ := hc.keeps_registers
    exact hinc
  | reset _ hc =>
    cases hc with
    | reset p later hin hr => exact absurd (hp p (by simp [hin])).1 (by simp [hr])
  | command word u _ hc hv =>
    refine performed hc hv ?_
    cases hc with
    | command _ later hin => exact (hp _ (by rw [hin]; rfl)).2 word rfl
    | commandHoldingTick _ later hin => exact (hp _ (by rw [hin]; rfl)).2 word rfl
  | sample u v hc hv =>
    rw [answerOnSamplePort_inc]
    exact performed hc hv rfl

theorem step_config {s t : State} (h : step s = .next t) : t.config = s.config := by
  cases step_case h with
  | idle _ hc => exact hc.keeps_registers.1
  | reset _ hc => exact hc.keeps_registers.1
  | command _ _ _ hc e => exact (exec_keeps_outside e).1.trans hc.keeps_registers.1
  | sample _ _ hc e => exact (exec_keeps_outside e).1.trans hc.keeps_registers.1

/-! ### `FAULT` flows nowhere -/

/-- A state with another `FAULT`. -/
def withFault (f : BitVec 4) (s : State) : State := { s with fault := f }

theorem agreeButFault_iff {s u : State} : AgreeButFault s u ↔ ∃ f, u = withFault f s := by
  constructor
  · rintro ⟨hconfig, hphase, hinc, hwave, hpw, hlfsr, hinputs, hsample, hrsp, hinstants⟩
    refine ⟨u.fault, ?_⟩
    cases u
    simp_all [withFault]
  · rintro ⟨f, rfl⟩
    simp [AgreeButFault, withFault]

theorem commit_withFault (q : ℕ) (f : BitVec 4) (s : State) :
    ∃ g, commit q (withFault f s) = withFault g (commit q s) := by
  obtain ⟨h, e⟩ | ⟨h, e⟩ := commit_cases q s <;> rw [e]
  · exact ⟨f, if_pos h⟩
  · exact ⟨faultWith .ovf f, if_neg h.not_gt⟩

theorem fixedPointFrequency_withFault (x : Frequency) (f : BitVec 4) (s : State) :
    ∃ g, fixedPointFrequency x (withFault f s) = withFault g (fixedPointFrequency x s) := by
  obtain hle | hgt := le_or_gt s.config.updateRate 64
  · rw [fixedPointFrequency_of_le hle, fixedPointFrequency_of_le (s := withFault f s) hle]
    exact ⟨_, rfl⟩
  · rw [fixedPointFrequency_of_gt hgt, fixedPointFrequency_of_gt (s := withFault f s) hgt]
    exact commit_withFault _ f s

theorem floatEffect_withFault (c : FloatClass) (f : BitVec 4) (s : State) :
    ∃ g, floatEffect (withFault f s) c = withFault g (floatEffect s c) := by
  cases c with
  | zero => exact commit_withFault 0 f s
  | positive x => exact commit_withFault _ f s
  | _ => exact ⟨_, rfl⟩

/-- No operation reads `FAULT`: changed before, the state after differs in `FAULT` alone. -/
theorem exec_withFault {i : Instr} {s t : State} (h : exec i s = .next t) (f : BitVec 4) :
    ∃ g, exec i (withFault f s) = .next (withFault g t) := by
  cases i with
  | setWaveform sel =>
    obtain hle | hgt := le_or_gt sel.toNat 3
    · rw [exec_setWaveform_of_le _ hle] at h ⊢; cases h; exact ⟨_, rfl⟩
    · rw [exec_setWaveform_of_gt _ hgt] at h ⊢; cases h; exact ⟨_, rfl⟩
  | setfInt a => cases h; exact (commit_withFault _ f s).imp fun _ => congrArg Host.Outcome.next
  | setfFloat p =>
    rw [exec_setfFloat] at h ⊢; cases h
    exact (floatEffect_withFault _ f s).imp fun _ => congrArg Host.Outcome.next
  | setfQ24n8 a => cases h; exact (fixedPointFrequency_withFault _ f s).imp fun _ => congrArg Host.Outcome.next
  | setfQ16n16 a => cases h; exact (fixedPointFrequency_withFault _ f s).imp fun _ => congrArg Host.Outcome.next
  | _ => cases h; exact ⟨_, rfl⟩

/-- What is performed next is what is presented, whatever `FAULT` holds. -/
theorem nextEvent_withFault (f : BitVec 4) (s : State) :
    nextEvent (withFault f s) = ((nextEvent s).1, withFault f (nextEvent s).2) := by
  have hc := nextEvent_case s
  rcases he : nextEvent s with ⟨e, u⟩
  rw [he] at hc
  cases hc with
  | quiet h => simp [nextEvent, withFault, h, beginInstant]
  | noRequest later h => simp [nextEvent, withFault, h, beginInstant]
  | reset p later h hr => simp [nextEvent, withFault, h, hr, beginInstant]
  | command word later h => simp [nextEvent, withFault, h, beginInstant]
  | commandHoldingTick word later h => simp [nextEvent, withFault, h, beginInstant]
  | sample later h => simp [nextEvent, withFault, h, beginInstant]

/-- No step reads `FAULT`. -/
theorem step_withFault {s t : State} (h : step s = .next t) (f : BitVec 4) :
    ∃ g, step (withFault f s) = .next (withFault g t) := by
  rw [step] at h ⊢
  rw [nextEvent_withFault]
  rcases he : nextEvent s with ⟨e, u⟩
  rw [he] at h
  cases e with
  | idle => cases h; exact ⟨f, rfl⟩
  | reset => cases h; exact ⟨0, rfl⟩
  | command word => exact exec_withFault h f
  | sample => cases h; exact ⟨f, rfl⟩

/-- No run reads `FAULT`. -/
theorem run_withFault (n : ℕ) (s : State) (f : BitVec 4) :
    ∃ t g, run n s = .next t ∧ run n (withFault f s) = .next (withFault g t) := by
  induction n generalizing s f with
  | zero => exact ⟨s, f, rfl, rfl⟩
  | succ n ih =>
    obtain ⟨t, ht⟩ := step_total s
    obtain ⟨g, hg⟩ := step_withFault ht f
    rw [run_succ n ht, run_succ n hg]
    exact ih t g

/-! ### Twice is once -/

/-- A flag set twice is set once (60_exceptions.md R132). -/
theorem violate_violate (v : Violation) (s : State) : violate v (violate v s) = violate v s := by
  simp [violate, setFault, answer, faultWith, BitVec.or_assoc]

theorem violate_writeInc_twice (v : Violation) (x : Accum) (s : State) :
    violate v (writeInc x (violate v (writeInc x s))) = violate v (writeInc x s) :=
  violate_violate v (writeInc x s)

theorem commit_commit (q : ℕ) (s : State) : commit q (commit q s) = commit q s := by
  obtain ⟨h, e⟩ | ⟨h, e⟩ := commit_cases q s <;> rw [e]
  · exact if_pos h
  · exact (if_neg h.not_gt).trans (violate_writeInc_twice _ _ s)

theorem commit_config (q : ℕ) (s : State) : (commit q s).config = s.config := by
  obtain ⟨-, e⟩ | ⟨-, e⟩ := commit_cases q s <;> rw [e] <;> rfl

theorem commit_increment_twice (x : Frequency) (s : State) :
    commit (increment (commit (increment s.config x) s).config x) (commit (increment s.config x) s) =
      commit (increment s.config x) s := by
  rw [commit_config, commit_commit]

theorem fixedPointFrequency_twice (x : Frequency) (s : State) :
    fixedPointFrequency x (fixedPointFrequency x s) = fixedPointFrequency x s := by
  obtain hle | hgt := le_or_gt s.config.updateRate 64
  · rw [fixedPointFrequency_of_le hle, fixedPointFrequency_of_le (s := violate .rate s) hle, violate_violate]
  · rw [fixedPointFrequency_of_gt hgt, fixedPointFrequency_of_gt (by rwa [commit_config]), commit_increment_twice]

theorem floatEffect_twice (c : FloatClass) (s : State) : floatEffect (floatEffect s c) c = floatEffect s c := by
  cases c with
  | zero => exact commit_commit 0 s
  | positive x => exact commit_increment_twice x s
  | negative => exact violate_writeInc_twice .ovf _ s
  | plusInfinity => exact violate_writeInc_twice .ovf _ s
  | minusInfinity => exact violate_writeInc_twice .ovf _ s
  | notANumber => exact violate_violate .ovf s

/-- What an operation but NEXT_SAMPLE writes does not depend on what it wrote before (20_memory.md section 2). -/
theorem exec_twice {i : Instr} (hi : i ≠ .nextSample) {s t : State} (h : exec i s = .next t) :
    exec i t = .next t := by
  have reserved (hr : isReservedRow i = true) : exec i t = .next t := by
    rw [exec_of_isReservedRow hr] at h ⊢
    cases h
    rw [violate_violate]
  cases i with
  | nextSample => exact absurd rfl hi
  | setWaveform sel =>
    obtain hle | hgt := le_or_gt sel.toNat 3
    · rw [exec_setWaveform_of_le _ hle] at h ⊢; cases h; rfl
    · rw [exec_setWaveform_of_gt _ hgt] at h ⊢; cases h; rw [violate_violate]
  | getWaveform => cases h; rfl
  | setPulseWidth _ => cases h; rfl
  | setfInt a => rw [exec_setfInt] at h ⊢; cases h; rw [commit_increment_twice]
  | setfFloat p => rw [exec_setfFloat] at h ⊢; cases h; rw [floatEffect_twice]
  | setfQ24n8 a => rw [exec_setfQ24n8] at h ⊢; cases h; rw [fixedPointFrequency_twice]
  | setfQ16n16 a => rw [exec_setfQ16n16] at h ⊢; cases h; rw [fixedPointFrequency_twice]
  | reserved0 => exact reserved rfl
  | reserved5 => exact reserved rfl
  | reserved6to7 _ => exact reserved rfl
  | reservedCtoF _ => exact reserved rfl

/-! ### The statements -/

/-- Settles O54: the phase is reduced modulo `2^W`, a written increment fits or is clamped, and the noise step has
no way to 0. -/
theorem stepKeepsTheInvariant : Obligations.StepKeepsTheInvariant :=
  fun _ _ => step_keeps_inv

/-- Settles O48, by induction on the number of steps: no step reads `FAULT`. -/
theorem faultNeverInfluencesAnythingElse : Obligations.FaultNeverInfluencesAnythingElse := by
  intro n s u hsu
  obtain ⟨f, rfl⟩ := agreeButFault_iff.mp hsu
  obtain ⟨t, g, ht, hv⟩ := run_withFault n s f
  exact ⟨t, _, ht, hv, agreeButFault_iff.mpr ⟨g, rfl⟩⟩

/-- Settles O49, register by register. -/
theorem onlyTheListedOperationsWriteEachRegister : Obligations.OnlyTheListedOperationsWriteEachRegister := by
  intro i s
  obtain ⟨t, ht⟩ := exec_total i s
  exact ⟨t, ht, exec_keeps_outside ht, exec_phase ht, exec_inc ht,
    (exec_wave ht).imp_right fun ⟨sel, hsel, _⟩ => ⟨sel, hsel⟩, exec_pw ht,
    (exec_lfsr ht).imp_right And.left, exec_fault ht⟩

/-- Settles O50: of what a step can perform, only a frequency operation and a reset write `INC`. -/
theorem incrementChangesOnlyByFrequencyOperationOrReset :
    Obligations.IncrementChangesOnlyByFrequencyOperationOrReset := by
  intro s hp
  obtain ⟨t, ht⟩ := step_total s
  exact ⟨t, ht, step_inc ht hp⟩

/-- Settles O51: every step keeps the parameters, so every run does. -/
theorem parametersNeverChange : Obligations.ParametersNeverChange :=
  fun n s => run_keeps (P := fun t => t.config = s.config) (fun _ _ hu h => (step_config h).trans hu) n rfl

/-- Settles O52, operation by operation. -/
theorem everyOperationButNextSampleIsIdempotent : Obligations.EveryOperationButNextSampleIsIdempotent := by
  intro i s hi
  obtain ⟨t, ht⟩ := exec_total i s
  exact ⟨t, ht, exec_twice hi ht⟩

/-- Settles O53: the reset values meet the invariant, for every configuration. -/
theorem resetBornInstancesMeetTheInvariant : Obligations.ResetBornInstancesMeetTheInvariant :=
  fun c => ⟨resetRegisters_inv (State.ofConfig c), rfl⟩

end Sys2Proof.Preservation
end

section
/-! PROOFS. The noise register's step as a linear map of the 16-bit words under exclusive-OR: it is invertible, and
the non-zero states are one cycle of 65535 (40_sample_generation.md R94). -/

namespace Sys2Proof.NoiseCycle

open Sys2Proof Sys2Proof.Machine Function

/-! ### Linear maps by their columns -/

/-- `f` distributes over exclusive-OR. -/
def XorLinear (f : BitVec 16 → BitVec 16) : Prop := ∀ x y, f (x ^^^ y) = f x ^^^ f y

theorem XorLinear.map_zero {f : BitVec 16 → BitVec 16} (hf : XorLinear f) : f 0 = 0 := by
  have h := hf 0 0
  rwa [BitVec.xor_self, BitVec.xor_self] at h

/-- A linear map without another zero than 0 is injective. -/
theorem XorLinear.injective {f : BitVec 16 → BitVec 16} (hf : XorLinear f) (h : ∀ x, x ≠ 0 → f x ≠ 0) :
    Injective f := by
  intro x y hxy
  by_contra hne
  refine h (x ^^^ y) (mt BitVec.xor_eq_zero_iff.mp hne) ?_
  rw [hf, hxy]
  exact BitVec.xor_self

/-- The linear map whose values at the powers of two are the columns: column `i` takes part when bit `i` is set. -/
def applyColumns : List (BitVec 16) → BitVec 16 → BitVec 16
  | [], _ => 0
  | c :: cs, x => (if x.getLsbD 0 then c else 0) ^^^ applyColumns cs (x >>> 1)

theorem applyColumns_xorLinear (cs : List (BitVec 16)) : XorLinear (applyColumns cs) := by
  induction cs with
  | nil => intro x y; simp [applyColumns]
  | cons c cs ih =>
    intro x y
    have hbit : (if (x ^^^ y).getLsbD 0 then c else 0) =
        (if x.getLsbD 0 then c else 0) ^^^ (if y.getLsbD 0 then c else 0) := by
      rw [BitVec.getLsbD_xor]
      cases x.getLsbD 0 <;> cases y.getLsbD 0 <;> simp
    simp only [applyColumns, BitVec.ushiftRight_xor_distrib, ih _ _, hbit]
    ac_rfl

/-- The columns of a composition with a linear map are the columns mapped. -/
theorem applyColumns_map {f : BitVec 16 → BitVec 16} (hf : XorLinear f) (cs : List (BitVec 16)) (x : BitVec 16) :
    applyColumns (cs.map f) x = f (applyColumns cs x) := by
  induction cs generalizing x with
  | nil => exact hf.map_zero.symm
  | cons c cs ih =>
    rw [List.map_cons, applyColumns, applyColumns, ih, hf]
    split
    · rfl
    · rw [hf.map_zero]

/-- The columns of the map applied twice. -/
def doubled (cs : List (BitVec 16)) : List (BitVec 16) := cs.map (applyColumns cs)

theorem applyColumns_doubled (cs : List (BitVec 16)) : applyColumns (doubled cs) = (applyColumns cs)^[2] :=
  funext (applyColumns_map (applyColumns_xorLinear cs) cs)

/-- `n` applications of the map with the given columns, by squaring, for `n` below `2^bits`. -/
def iterateColumns : ℕ → ℕ → List (BitVec 16) → BitVec 16 → BitVec 16
  | 0, _, _, x => x
  | bits + 1, n, cs, x => iterateColumns bits (n / 2) (doubled cs) (if n % 2 = 1 then applyColumns cs x else x)

theorem iterateColumns_eq {bits n : ℕ} (h : n < 2 ^ bits) (cs : List (BitVec 16)) (x : BitVec 16) :
    iterateColumns bits n cs x = (applyColumns cs)^[n] x := by
  induction bits generalizing n cs x with
  | zero => rw [show n = 0 by omega]; rfl
  | succ bits ih =>
    have hfirst : (if n % 2 = 1 then applyColumns cs x else x) = (applyColumns cs)^[n % 2] x := by
      obtain h0 | h1 := Nat.mod_two_eq_zero_or_one n
      · simp [h0]
      · simp [h1]
    rw [iterateColumns, ih (by omega), applyColumns_doubled, hfirst, ← iterate_mul, ← iterate_add_apply,
      Nat.div_add_mod]

/-! ### The noise step -/

theorem lfsrStep_xorLinear : XorLinear lfsrStep := by
  intro x y
  have hmask : (if (x ^^^ y).getLsbD 0 then tapMask else 0) =
      (if x.getLsbD 0 then tapMask else 0) ^^^ (if y.getLsbD 0 then tapMask else 0) := by
    rw [BitVec.getLsbD_xor]
    cases x.getLsbD 0 <;> cases y.getLsbD 0 <;> simp
  simp only [lfsrStep, BitVec.ushiftRight_xor_distrib, hmask]
  ac_rfl

/-- The powers of two below `2^n`, the columns of the identity on the low `n` bits. -/
def powersOfTwo : ℕ → List (BitVec 16)
  | 0 => []
  | n + 1 => 1 :: (powersOfTwo n).map fun c : BitVec 16 => c <<< 1

theorem lsb_xor_upper (x : BitVec 16) : (if x.getLsbD 0 then 1 else 0 : BitVec 16) ^^^ (x >>> 1) <<< 1 = x := by
  apply BitVec.eq_of_getLsbD_eq
  intro i hi
  rcases i with _ | i
  · cases x.getLsbD 0 <;> simp
  · cases x.getLsbD 0 <;> simp [hi, Nat.add_comm 1]

theorem applyColumns_powersOfTwo {n : ℕ} {x : BitVec 16} (h : x.toNat < 2 ^ n) :
    applyColumns (powersOfTwo n) x = x := by
  induction n generalizing x with
  | zero =>
    have hx : x = 0 := BitVec.eq_of_toNat_eq (by simpa using h)
    rw [hx]
    rfl
  | succ n ih =>
    have hshift : XorLinear fun c => c <<< 1 := fun x y => BitVec.shiftLeft_xor_distrib x y 1
    have hupper : (x >>> 1).toNat < 2 ^ n := by
      rw [BitVec.toNat_ushiftRight, Nat.shiftRight_one]
      omega
    rw [powersOfTwo, applyColumns, applyColumns_map hshift, ih hupper, lsb_xor_upper]

/-- The step's columns: bit 0 goes to the mask, every other bit one place down (R86). -/
def lfsrColumns : List (BitVec 16) := tapMask :: powersOfTwo 15

theorem applyColumns_lfsrColumns : applyColumns lfsrColumns = lfsrStep := by
  funext x
  have hupper : (x >>> 1).toNat < 2 ^ 15 := by
    have := x.isLt
    rw [BitVec.toNat_ushiftRight, Nat.shiftRight_one]
    omega
  rw [lfsrColumns, applyColumns, applyColumns_powersOfTwo hupper, lfsrStep, BitVec.xor_comm]

/-- The columns of 256 steps. -/
def columns256 : List (BitVec 16) :=
  [0x9AB8, 0x5D71, 0xBAE2, 0x1DC5, 0x3B8A, 0x7714, 0xEE28, 0xB451,
    0x00A3, 0x0146, 0x028C, 0x0518, 0x0A30, 0x1460, 0x28C0, 0x5180]

theorem doubled_eight_times : doubled^[8] lfsrColumns = columns256 := by decide

theorem applyColumns_doubled_iterate (k : ℕ) (cs : List (BitVec 16)) :
    applyColumns (doubled^[k] cs) = (applyColumns cs)^[2 ^ k] := by
  induction k generalizing cs with
  | zero => rfl
  | succ k ih => rw [iterate_succ_apply, ih, applyColumns_doubled, ← iterate_mul, pow_succ']

/-- `2^8 * n + m` steps, by squaring. -/
theorem iterate_lfsrStep {m n : ℕ} (hm : m < 2 ^ 8) (hn : n < 2 ^ 8) (x : BitVec 16) :
    lfsrStep^[2 ^ 8 * n + m] x = iterateColumns 8 n columns256 (iterateColumns 8 m lfsrColumns x) := by
  rw [iterateColumns_eq hm, iterateColumns_eq hn, ← doubled_eight_times, applyColumns_doubled_iterate,
    applyColumns_lfsrColumns, ← iterate_mul, ← iterate_add_apply]

/-! ### The period -/

/-- A divisor of `n` that divides no `n / p` for a prime `p` is `n`. -/
theorem eq_of_dvd_of_not_dvd_div {d n : ℕ} (hn : n ≠ 0) (hd : d ∣ n) (h : ∀ p, p.Prime → p ∣ n → ¬ d ∣ n / p) :
    d = n := by
  obtain ⟨k, rfl⟩ := hd
  by_contra hne
  have hk : k ≠ 1 := by
    rintro rfl
    exact hne (mul_one d).symm
  obtain ⟨p, hp, m, rfl⟩ := Nat.exists_prime_and_dvd hk
  refine h p hp ⟨d * m, by ring⟩ ⟨m, ?_⟩
  rw [show d * (p * m) = p * (d * m) by ring, Nat.mul_div_cancel_left _ hp.pos]

theorem prime_dvd_65535 {p : ℕ} (hp : p.Prime) (h : p ∣ 65535) : p = 3 ∨ p = 5 ∨ p = 17 ∨ p = 257 := by
  rw [show 65535 = 3 * 5 * 17 * 257 by norm_num] at h
  simpa only [hp.dvd_mul, Nat.prime_dvd_prime_iff_eq hp (show Nat.Prime 3 by norm_num),
    Nat.prime_dvd_prime_iff_eq hp (show Nat.Prime 5 by norm_num),
    Nat.prime_dvd_prime_iff_eq hp (show Nat.Prime 17 by norm_num),
    Nat.prime_dvd_prime_iff_eq hp (show Nat.Prime 257 by norm_num), or_assoc] using h

/-- 65535 steps from 1 lead back to 1. -/
theorem isPeriodicPt_one : IsPeriodicPt lfsrStep 65535 1 := by
  have hlow : iterateColumns 8 255 lfsrColumns 1 = 0x5D71 := by decide
  have hhigh : iterateColumns 8 255 columns256 0x5D71 = 1 := by decide
  have h := iterate_lfsrStep (m := 255) (n := 255) (by decide) (by decide) 1
  rwa [hlow, hhigh] at h

theorem not_isPeriodicPt_one {m n : ℕ} (hm : m < 2 ^ 8) (hn : n < 2 ^ 8)
    (h : iterateColumns 8 n columns256 (iterateColumns 8 m lfsrColumns 1) ≠ 1) :
    ¬ IsPeriodicPt lfsrStep (2 ^ 8 * n + m) 1 := by
  rwa [IsPeriodicPt, IsFixedPt, iterate_lfsrStep hm hn]

theorem minimalPeriod_one : minimalPeriod lfsrStep 1 = 65535 := by
  refine eq_of_dvd_of_not_dvd_div (by decide) isPeriodicPt_one.minimalPeriod_dvd fun p hp hdvd => ?_
  rw [← isPeriodicPt_iff_minimalPeriod_dvd]
  obtain rfl | rfl | rfl | rfl := prime_dvd_65535 hp hdvd
  · exact not_isPeriodicPt_one (m := 85) (n := 85) (by decide) (by decide) (by decide)
  · exact not_isPeriodicPt_one (m := 51) (n := 51) (by decide) (by decide) (by decide)
  · exact not_isPeriodicPt_one (m := 15) (n := 15) (by decide) (by decide) (by decide)
  · exact not_isPeriodicPt_one (m := 255) (n := 0) (by decide) (by decide) (by decide)

/-- The 65535 non-zero states are one cycle. -/
theorem exists_iterate_of_ne_zero {s : BitVec 16} (hs : s ≠ 0) : ∃ n, lfsrStep^[n] 1 = s := by
  have hne (n : ℕ) : lfsrStep^[n] 1 ≠ 0 := by
    induction n with
    | zero => decide
    | succ n ih =>
      rw [iterate_succ_apply']
      exact lfsrStep_ne_zero ih
  have hinj : Set.InjOn (lfsrStep^[·] 1) (Finset.range 65535 : Finset ℕ) := by
    rw [Finset.coe_range, ← minimalPeriod_one]
    exact iterate_injOn_Iio_minimalPeriod
  have hcycle : (Finset.range 65535).image (lfsrStep^[·] 1) = Finset.univ.erase 0 := by
    refine Finset.eq_of_subset_of_card_le (fun x hx => ?_) ?_
    · obtain ⟨n, -, rfl⟩ := Finset.mem_image.mp hx
      exact Finset.mem_erase.mpr ⟨hne n, Finset.mem_univ _⟩
    · rw [Finset.card_image_of_injOn hinj, Finset.card_range, Finset.card_erase_of_mem (Finset.mem_univ _),
        Finset.card_univ, ← FinEnum.card_eq_fintypeCard, FinEnum.card_bitVec]
      norm_num
  obtain ⟨n, -, hn⟩ := Finset.mem_image.mp (hcycle ▸ Finset.mem_erase.mpr ⟨hs, Finset.mem_univ s⟩)
  exact ⟨n, hn⟩

/-! ### The statements -/

/-- Settles O26: the step is linear, with no zero but 0, and the words are finite in number. -/
theorem noiseStepIsInvertible : Obligations.NoiseStepIsInvertible := by
  refine ⟨Finite.injective_iff_bijective.mp ?_, fun s => ⟨fun h => ?_, fun h => ?_⟩⟩
  · exact lfsrStep_xorLinear.injective fun _ => lfsrStep_ne_zero
  · by_contra hs
    exact lfsrStep_ne_zero hs h
  · rw [h]
    exact lfsrStep_xorLinear.map_zero

/-- Settles O27: the cycle of 1 has 65535 states, which are all the non-zero ones. -/
theorem noisePeriodIs65535FromEveryNonzeroState : Obligations.NoisePeriodIs65535FromEveryNonzeroState := by
  intro s hs
  obtain ⟨n, rfl⟩ := exists_iterate_of_ne_zero hs
  rw [minimalPeriod_apply_iterate ⟨65535, by decide, isPeriodicPt_one⟩, minimalPeriod_one]

end Sys2Proof.NoiseCycle
end

section
/-! PROOFS. The samples of SAW, TRIANGLE and RECTANGLE as numbers, and how they follow each other
(40_sample_generation.md R82 to R85 and section 4). -/

namespace Sys2Proof.Waveforms

open Sys2Proof Sys2Proof.Machine Sys2Proof.Spec
open Sys2Proof.SampleGeneration

/-! ### The index and half the table -/

theorem nextIndex_lt (s : State) : nextIndex s < s.config.tableSize := by
  rw [← tableIndex_advancedPhase]
  exact tableIndex_lt _ _

/-- `T/2` over the integers is `T/2` over the numbers (R83, R84). -/
theorem halfTable_eq (c : Config) : halfTable c = (c.tableSize / 2 : ℕ) := by
  rw [halfTable]
  omega

/-- `T = 2 * (T/2)` over the integers. -/
theorem two_mul_halfTable (c : Config) : 2 * halfTable c = c.tableSize := by
  rw [halfTable_eq]
  exact_mod_cast c.tableSize_half

theorem halfTable_bounds (c : Config) : 1 ≤ halfTable c ∧ halfTable c ≤ 128 := by
  have := c.tableSize_bounds
  have := two_mul_halfTable c
  omega

/-! ### SAW -/

theorem saw_eq (c : Config) (i : ℕ) : saw c i = i - halfTable c := by
  rw [saw, halfTable_eq]

theorem sampleByte_saw {s : State} (h : s.wave = 0) :
    (sampleByte s).toInt = nextIndex s - halfTable s.config := by
  have hbounds := saw_bounds s.config (nextIndex_lt s)
  have hhalf := halfTable_bounds s.config
  have hbyte : sampleByte s = pattern8 (saw s.config (nextIndex s)) := by rw [sampleByte, h]; rfl
  rw [← halfTable_eq] at hbounds
  rw [← saw_eq, hbyte]
  exact signed8_pattern8 (by omega) (by omega)

/-- With `T = 256` the sample is the index with bit 7 flipped. -/
theorem pattern8_sub_half (b : BitVec 8) : pattern8 ((b.toNat : ℤ) - 128) = b ^^^ 0x80 := by
  revert b
  decide

theorem sampleByte_saw_flip {s : State} (h : s.wave = 0) (hT : s.config.tableSize = 256) :
    (sampleByte s).toNat = nextIndex s ^^^ 0x80 := by
  have hlt := nextIndex_lt s
  have hindex : (BitVec.ofNat 8 (nextIndex s)).toNat = nextIndex s := Nat.mod_eq_of_lt (by omega)
  have hbyte : sampleByte s = BitVec.ofNat 8 (nextIndex s) ^^^ 0x80 := by
    rw [← pattern8_sub_half, hindex, sampleByte, h]
    simp [derive, saw, hT]
  rw [hbyte, BitVec.toNat_xor, hindex]
  rfl

/-! ### TRIANGLE -/

theorem triangle_of_lower {c : Config} {i : ℕ} (h : (i : ℤ) < halfTable c) :
    triangle c i = 2 * (i : ℤ) - halfTable c := by
  rw [halfTable_eq] at h ⊢
  exact if_pos (by exact_mod_cast h)

theorem triangle_of_upper {c : Config} {i : ℕ} (hi : i < c.tableSize) (h : halfTable c ≤ i) :
    triangle c i = 2 * ((c.tableSize : ℤ) - 1 - i) - halfTable c := by
  rw [halfTable_eq] at h ⊢
  rw [triangle, if_neg (by omega), xor_tableSize c hi]
  omega

theorem sampleByte_triangle {s : State} (h : s.wave = 1) :
    (sampleByte s).toInt = triangle s.config (nextIndex s) := by
  have hbounds := triangle_bounds s.config (nextIndex_lt s)
  have hhalf := halfTable_bounds s.config
  have hbyte : sampleByte s = pattern8 (triangle s.config (nextIndex s)) := by rw [sampleByte, h]; rfl
  rw [← halfTable_eq] at hbounds
  rw [hbyte]
  exact signed8_pattern8 (by omega) (by omega)

/-! ### RECTANGLE -/

theorem rectangle_eq_high_iff (i : ℕ) (pw : BitVec 8) : rectangle i pw = 127 ↔ pw.toNat < i := by
  obtain h | h := lt_or_ge pw.toNat i
  · simp [rectangle_of_gt h, h]
  · simp [rectangle_of_le h, h.not_gt]

theorem sampleByte_rectangle_toInt {s : State} (h : s.wave = 2) :
    (sampleByte s).toInt = rectangle (nextIndex s) s.pw := by
  rw [sampleByte_rectangle h]
  obtain hgt | hle := lt_or_ge s.pw.toNat (nextIndex s)
  · rw [rectangle_of_gt hgt]; rfl
  · rw [rectangle_of_le hle]; rfl

/-! ### One sample after another -/

/-- With one table step per call the index goes up by one, modulo `T` (section 4). -/
theorem nextIndex_sampled {s : State} (h : s.inc.toNat = 2 ^ s.config.fracBits) :
    nextIndex (sampled s) = (nextIndex s + 1) % s.config.tableSize := by
  have hphase : (sampled s).phase.toNat = nextPhase s := advancedPhase_toNat _ _ _
  have hnext : nextPhase (sampled s) =
      (nextPhase s + 2 ^ s.config.fracBits) % (s.config.tableSize * 2 ^ s.config.fracBits) := by
    rw [nextPhase, hphase, s.config.tableSize_mul, ← h]
    rfl
  calc nextIndex (sampled s)
      = nextPhase (sampled s) / 2 ^ s.config.fracBits := rfl
    _ = (nextIndex s + 1) % s.config.tableSize := by
      rw [hnext, Nat.mod_mul_left_div_self, Nat.add_div_right _ (Nat.two_pow_pos _), nextIndex]

/-- With `INC = 0` and `PHASE` inside `W` bits the phase stands still (section 4). -/
theorem sampled_phase_of_inc_zero {s : State} (hphase : s.phase.toNat < 2 ^ s.config.width) (hinc : s.inc = 0) :
    (sampled s).phase = s.phase := by
  apply BitVec.eq_of_toNat_eq
  calc (sampled s).phase.toNat = (s.phase.toNat + s.inc.toNat) % 2 ^ s.config.width := advancedPhase_toNat _ _ _
    _ = s.phase.toNat := by rw [hinc]; exact Nat.mod_eq_of_lt hphase

/-- Outside NOISE a standing phase makes the response all that a sample changes. -/
theorem sampled_of_inc_zero {s : State} (hphase : s.phase.toNat < 2 ^ s.config.width) (hinc : s.inc = 0)
    (hw : s.wave ≠ 3) : sampled s = answer (sampleByte s) s := by
  have h : advancedPhase s.config s.phase s.inc = s.phase := sampled_phase_of_inc_zero hphase hinc
  rw [sampled, h, lfsrAfter_of_ne hw]

/-! ### The statements -/

/-- Settles O16: the index is below `T`, so the difference fits a signed byte. -/
theorem sawSampleIsIndexLessHalf : Obligations.SawSampleIsIndexLessHalf := by
  intro s hw
  exact ⟨sampled s, sampleByte s, exec_nextSample_eq s, rfl, nextIndex_lt s, sampleByte_saw hw,
    sampleByte_saw_flip hw, sampleFrame_sampled s, lfsrAfter_of_ne (by rw [hw]; decide) _⟩

/-- Settles O17, half by half. -/
theorem triangleSampleRisesThenFalls : Obligations.TriangleSampleRisesThenFalls := by
  intro s hw
  have hlt := nextIndex_lt s
  refine ⟨sampled s, sampleByte s, exec_nextSample_eq s, rfl, hlt, fun hlow => ?_, fun hup => ?_,
    sampleFrame_sampled s, lfsrAfter_of_ne (by rw [hw]; decide) _⟩
  · rw [sampleByte_triangle hw, triangle_of_lower hlow]
  · rw [sampleByte_triangle hw, triangle_of_upper hlt hup, xor_tableSize _ hlt]
    omega

/-- Settles O21, from the ranges of the derivations. -/
theorem sampleRangesPerWaveform : Obligations.SampleRangesPerWaveform := by
  intro s
  refine ⟨sampled s, sampleByte s, exec_nextSample_eq s, rfl, fun hw => ?saw, fun hw => ?triangle,
    fun hw => ?rectangle⟩
  case saw =>
    have := saw_bounds s.config (nextIndex_lt s)
    rwa [← halfTable_eq, saw_eq, ← sampleByte_saw hw] at this
  case triangle =>
    have := triangle_bounds s.config (nextIndex_lt s)
    rwa [← halfTable_eq, ← sampleByte_triangle hw] at this
  case rectangle =>
    rw [sampleByte_rectangle_toInt hw, rectangle]
    split
    · exact .inr rfl
    · exact .inl rfl

/-- Settles O22: the index goes up by one, and wraps from `T - 1` to 0. -/
theorem sawRampHasOneDropPerPeriod : Obligations.SawRampHasOneDropPerPeriod := by
  intro s hw hinc
  have hfirst := sampleByte_saw hw
  have hsecond : (sampleByte (sampled s)).toInt = nextIndex (sampled s) - halfTable s.config :=
    sampleByte_saw (s := sampled s) hw
  rw [nextIndex_sampled hinc] at hsecond
  have hlt := nextIndex_lt s
  have hhalf := two_mul_halfTable s.config
  refine ⟨sampled s, sampled (sampled s), sampleByte s, sampleByte (sampled s), exec_nextSample_eq s,
    exec_nextSample_eq _, rfl, rfl, fun htop => ?_, fun hbelow => ?_⟩
  · have hwrap : nextIndex s + 1 = s.config.tableSize := by omega
    rw [hsecond, hwrap, Nat.mod_self]
    omega
  · rw [hsecond, hfirst, Nat.mod_eq_of_lt (by omega)]
    omega

/-- Settles O23, half by half. -/
theorem triangleIsAPalindrome : Obligations.TriangleIsAPalindrome := by
  intro c i hi
  have hhalf := two_mul_halfTable c
  have hpos := halfTable_bounds c
  have heq := halfTable_eq c
  refine ⟨?mirror, fun h => ?rise, fun h => ?hold, fun h htop => ?fall, ?start⟩
  case mirror =>
    obtain hlow | hup := lt_or_ge (i : ℤ) (halfTable c)
    · rw [triangle_of_lower hlow, triangle_of_upper (by omega) (by omega)]
      omega
    · rw [triangle_of_upper hi hup, triangle_of_lower (by omega)]
      omega
  case rise =>
    rw [triangle_of_lower (by omega), triangle_of_lower (by omega)]
    omega
  case hold =>
    rw [triangle_of_upper (by omega) (by omega), triangle_of_lower (by omega)]
    omega
  case fall =>
    rw [triangle_of_upper htop (by omega), triangle_of_upper hi (by omega)]
    omega
  case start =>
    rw [triangle_of_lower (by omega)]
    omega

/-- Settles O24: the high indices are those from `P + 1` to `T - 1`. -/
theorem rectangleDutyIsTMinusOneMinusP : Obligations.RectangleDutyIsTMinusOneMinusP := by
  intro c p
  have hhigh : ((Finset.range c.tableSize).filter fun i => rectangle i p = 127) =
      Finset.Ico (p.toNat + 1) c.tableSize := by
    ext i
    rw [Finset.mem_filter, Finset.mem_range, rectangle_eq_high_iff, Finset.mem_Ico]
    omega
  rw [hhigh, Nat.card_Ico]
  omega

/-- Settles O25: with the phase standing still nothing but the noise register can move, and it has no fixed state but
0. -/
theorem zeroIncrementRepeatsTheSample : Obligations.ZeroIncrementRepeatsTheSample := by
  refine ⟨fun s ⟨hphase, _, _⟩ hinc hw => ?_, fun s ⟨hphase, _, hlfsr⟩ hinc hw => ?_⟩
  · refine ⟨sampled s, exec_nextSample_eq s, sampled_phase_of_inc_zero hphase hinc, ?_⟩
    rw [exec_nextSample_eq, sampled_of_inc_zero hphase hinc hw,
      sampled_of_inc_zero (s := answer (sampleByte s) s) hphase hinc hw]
    rfl
  · refine ⟨sampled s, exec_nextSample_eq s, sampled_phase_of_inc_zero hphase hinc, fun hfix => ?_⟩
    rw [sampled_lfsr, lfsrAfter_noise hw] at hfix
    have hone : Function.minimalPeriod lfsrStep s.lfsr = 1 := Function.minimalPeriod_eq_one_iff_isFixedPt.mpr hfix
    rw [NoiseCycle.noisePeriodIs65535FromEveryNonzeroState s.lfsr hlfsr] at hone
    exact absurd hone (by decide)

end Sys2Proof.Waveforms
end

section
/-! PROOFS. Steps and runs by what the ports present: reset, commands, sample requests, coincidences, and any list of
them (20_memory.md section 3, 30_encoding.md section 5, 70_reset_and_hazards.md). -/

namespace Sys2Proof.PortsAndRuns

open Sys2Proof Sys2Proof.Machine Sys2Proof.Spec
open Sys2Proof.SampleGeneration
open Sys2Proof.Configuration (selectorCode_toNat)
open Sys2Proof.CanonicalWords (decode_encode)
open Sys2Proof.Preservation (run_keeps step_keeps_inv)
open Sys2Proof.Waveforms

/-! ### The ports' side of a state -/

/-- Replacing the ports' side keeps the registers. -/
theorem sameRegisters_withPorts (inputs : List PortInput) (sample rsp : Option Byte) (instants : ℕ) (s : State) :
    SameRegisters s (withPorts inputs sample rsp instants s) :=
  ⟨rfl, rfl, rfl, rfl, rfl, rfl, rfl⟩

theorem sameRegisters_refl (s : State) : SameRegisters s s := ⟨rfl, rfl, rfl, rfl, rfl, rfl, rfl⟩

theorem sameRegisters_trans {s t u : State} (hst : SameRegisters s t) (htu : SameRegisters t u) :
    SameRegisters s u := by
  obtain ⟨h1, h2, h3, h4, h5, h6, h7⟩ := hst
  obtain ⟨k1, k2, k3, k4, k5, k6, k7⟩ := htu
  exact ⟨k1.trans h1, k2.trans h2, k3.trans h3, k4.trans h4, k5.trans h5, k6.trans h6, k7.trans h7⟩

/-- States with the same registers differ in the ports' side alone. -/
theorem eq_withPorts_of_sameRegisters {s u : State} (h : SameRegisters s u) :
    u = withPorts u.inputs u.sample u.rsp u.instants s := by
  obtain ⟨hconfig, hphase, hinc, hwave, hpw, hlfsr, hfault⟩ := h
  cases u
  simp_all [withPorts]

/-! ### One step, by what is presented -/

/-- An operation on the state of its instant: the registers it leaves where none has passed, and its response. -/
theorem exec_beginInstant {i : Instr} {s t : State} (h : exec i s = .next t) (later : List PortInput) :
    exec i (beginInstant later s) = .next (withPorts later none t.rsp (s.instants + 1) t) :=
  exec_withPorts h later none none (s.instants + 1)

/-- A command alone. -/
theorem step_of_command {s t : State} {word : OpWord} {later : List PortInput}
    (h : s.inputs = ⟨false, false, some word⟩ :: later) (ht : exec (decode word) s = .next t) :
    step s = .next (withPorts later none t.rsp (s.instants + 1) t) := by
  rw [step_command h, exec_beginInstant ht]

/-- A command with a coinciding sample request, which is held. -/
theorem step_of_coincidence {s t : State} {word : OpWord} {later : List PortInput}
    (h : s.inputs = ⟨false, true, some word⟩ :: later) (ht : exec (decode word) s = .next t) :
    step s = .next (withPorts (tickOnly :: later) none t.rsp (s.instants + 1) t) := by
  rw [step_commandHoldingTick h]
  exact exec_beginInstant ht _

/-- A sample request alone, answered on the sample port. -/
theorem step_of_tickOnly {s : State} {later : List PortInput} (h : s.inputs = tickOnly :: later) :
    step s = .next (withPorts later (some (sampleByte s)) none (s.instants + 1) (sampled s)) := by
  rw [step_tick h, exec_beginInstant (exec_nextSample_eq s)]
  rfl

/-- A command and a sample request, at one instant or at two, take two steps to the same end: the sample of the state
the command leaves. -/
theorem run_two_of_command_and_tick {s t : State} {word : OpWord} {later : List PortInput}
    (h : s.inputs = ⟨false, true, some word⟩ :: later ∨ s.inputs = ⟨false, false, some word⟩ :: tickOnly :: later)
    (ht : exec (decode word) s = .next t) :
    run 2 s = .next (withPorts later (some (sampleByte t)) none (s.instants + 2) (sampled t)) := by
  have hfirst : step s = .next (withPorts (tickOnly :: later) none t.rsp (s.instants + 1) t) :=
    h.elim (fun h => step_of_coincidence h ht) fun h => step_of_command h ht
  rw [run_succ 1 hfirst, run_succ 0 (step_of_tickOnly rfl)]
  rfl

/-! ### Runs of sample requests -/

/-- A run of sample requests adds `INC` once for each (40_sample_generation.md R81). -/
theorem run_ticks_phase (n : ℕ) {s : State} (hs : s.Inv) (h : s.inputs = List.replicate n tickOnly) :
    ∃ t, run n s = .next t ∧ t.phase.toNat = (s.phase.toNat + n * s.inc.toNat) % 2 ^ s.config.width ∧
      t.inc = s.inc ∧ t.inputs = [] := by
  induction n generalizing s with
  | zero =>
    refine ⟨s, rfl, ?_, rfl, h⟩
    obtain ⟨hphase, -⟩ := hs
    rw [Nat.zero_mul, Nat.add_zero, Nat.mod_eq_of_lt hphase]
  | succ n ih =>
    have hstep := step_of_tickOnly (h.trans List.replicate_succ)
    obtain ⟨t, ht, hphase, hinc, hinputs⟩ := ih (step_keeps_inv hs hstep) rfl
    refine ⟨t, (run_succ n hstep).trans ht, ?_, hinc, hinputs⟩
    have hadvanced : (sampled s).phase.toNat = nextPhase s := advancedPhase_toNat _ _ _
    calc t.phase.toNat
        = ((sampled s).phase.toNat + n * s.inc.toNat) % 2 ^ s.config.width := hphase
      _ = (s.phase.toNat + (n + 1) * s.inc.toNat) % 2 ^ s.config.width := by
        rw [hadvanced, nextPhase, Nat.mod_add_mod]
        congr 1
        ring

/-- The registers a sample of SAW at rest reads, as they are right after reset. -/
def SawAtRest (c : Config) (s : State) : Prop := s.config = c ∧ s.phase = 0 ∧ s.inc = 0 ∧ s.wave = 0

theorem sampled_sawAtRest {c : Config} {s : State} (h : SawAtRest c s) : SawAtRest c (sampled s) := by
  obtain ⟨hconfig, hphase, hinc, hwave⟩ := h
  have hstill := sampled_phase_of_inc_zero (by rw [hphase]; exact Nat.two_pow_pos _) hinc
  exact ⟨hconfig, hstill.trans hphase, hinc, hwave⟩

theorem sampleByte_of_sawAtRest {c : Config} {s : State} (h : SawAtRest c s) :
    (sampleByte s).toInt = -halfTable c := by
  obtain ⟨rfl, hphase, hinc, hwave⟩ := h
  rw [sampleByte_saw hwave]
  simp [nextIndex, nextPhase, hphase, hinc]

/-- As long as nothing but samples is asked for, SAW at rest answers `-T/2`. -/
theorem run_ticks_sawAtRest {c : Config} (n : ℕ) {s : State} (hs : SawAtRest c s)
    (h : s.inputs = List.replicate (n + 1) tickOnly) :
    ∃ t b, run (n + 1) s = .next t ∧ t.sample = some b ∧ b.toInt = -halfTable c ∧ t.phase = 0 := by
  induction n generalizing s with
  | zero =>
    obtain ⟨-, hphase, -⟩ := sampled_sawAtRest hs
    exact ⟨_, _, run_succ 0 (step_of_tickOnly h), rfl, sampleByte_of_sawAtRest hs, hphase⟩
  | succ n ih =>
    rw [run_succ (n + 1) (step_of_tickOnly (h.trans List.replicate_succ))]
    exact ih (sampled_sawAtRest hs) rfl

/-! ### Runs of anything presented -/

theorem run_add {m : ℕ} {s t : State} (h : run m s = .next t) (n : ℕ) : run (m + n) s = run n t := by
  induction m generalizing s with
  | zero =>
    cases h
    rw [Nat.zero_add]
  | succ m ih =>
    obtain ⟨u, hu⟩ := step_total s
    rw [run_succ m hu] at h
    rw [Nat.succ_add, run_succ (m + n) hu, ih h]

theorem perform_operation {i : Instr} {s t : State} (h : exec i s = .next t) : perform s (.operation i) = t := by
  rw [perform, h]

/-- What is performed on the registers does not depend on the ports' side. -/
theorem perform_sameRegisters {s u : State} (h : SameRegisters s u) (x : Presented) :
    SameRegisters (perform s x) (perform u x) := by
  rw [eq_withPorts_of_sameRegisters h]
  cases x with
  | reset => exact sameRegisters_withPorts _ _ _ _ _
  | operation i =>
    obtain ⟨t, ht⟩ := exec_total i s
    rw [perform_operation ht, perform_operation (exec_withPorts ht _ _ _ _)]
    exact sameRegisters_withPorts _ _ _ _ _

theorem foldl_perform_sameRegisters {s u : State} (h : SameRegisters s u) (xs : List Presented) :
    SameRegisters (xs.foldl perform s) (xs.foldl perform u) := by
  induction xs generalizing s u with
  | nil => exact h
  | cons x xs ih => exact ih (perform_sameRegisters h x)

/-- The steps of one instant perform what it presents, in order. -/
theorem run_instant {s : State} {p : PortInput} {later : List PortInput} (h : s.inputs = p :: later) :
    ∃ t, run (stepsFor p) s = .next t ∧ t.inputs = later ∧
      SameRegisters ((presentedAt p).foldl perform s) t := by
  obtain ⟨rst, tick, cmd⟩ := p
  cases rst with
  | true => exact ⟨_, run_succ 0 (step_rst h rfl), rfl, sameRegisters_withPorts _ _ _ _ _⟩
  | false =>
    cases cmd with
    | none =>
      cases tick with
      | false => exact ⟨_, run_succ 0 (step_noRequest h), rfl, sameRegisters_withPorts _ _ _ _ _⟩
      | true => exact ⟨_, run_succ 0 (step_of_tickOnly h), rfl, sameRegisters_withPorts _ _ _ _ _⟩
    | some word =>
      obtain ⟨t, ht⟩ := exec_total (decode word) s
      have hperform := perform_operation ht
      cases tick with
      | false =>
        refine ⟨_, run_succ 0 (step_of_command h ht), rfl, ?_⟩
        change SameRegisters (perform s (.operation (decode word))) _
        rw [hperform]
        exact sameRegisters_withPorts _ _ _ _ _
      | true =>
        refine ⟨_, run_two_of_command_and_tick (.inl h) ht, rfl, ?_⟩
        change SameRegisters (perform (perform s (.operation (decode word))) (.operation .nextSample)) _
        rw [hperform]
        exact sameRegisters_withPorts _ _ _ _ _

/-- The steps of a list of instants perform what they present, in order. -/
theorem run_instants (ps : List PortInput) {s : State} (h : s.inputs = ps) :
    ∃ t, run (ps.map stepsFor).sum s = .next t ∧ t.inputs = [] ∧
      SameRegisters ((ps.flatMap presentedAt).foldl perform s) t := by
  induction ps generalizing s with
  | nil => exact ⟨s, rfl, h, sameRegisters_refl s⟩
  | cons p ps ih =>
    obtain ⟨u, hu, hinputs, hsame⟩ := run_instant h
    obtain ⟨t, ht, hempty, hrest⟩ := ih hinputs
    refine ⟨t, ?_, hempty, ?_⟩
    · rw [List.map_cons, List.sum_cons, run_add hu, ht]
    · rw [List.flatMap_cons, List.foldl_append]
      exact sameRegisters_trans (foldl_perform_sameRegisters hsame _) hrest

/-! ### The statements -/

/-- Settles O28, by induction on the number of requests. -/
theorem samplesAdvanceThePhaseByMultiplesOfTheIncrement :
    Obligations.SamplesAdvanceThePhaseByMultiplesOfTheIncrement :=
  fun n _ hs h => run_ticks_phase n hs h

/-- Settles O29: reset leaves SAW at rest, and a sample keeps it there. -/
theorem samplesAfterResetAreConstant : Obligations.SamplesAfterResetAreConstant :=
  fun _ n => run_ticks_sawAtRest n ⟨rfl, rfl, rfl, rfl⟩ rfl

/-- Settles O34: the sample is that of the state the selection leaves, waveform by waveform. -/
theorem newWaveformShowsInTheVeryNextSample : Obligations.NewWaveformShowsInTheVeryNextSample := by
  intro s sel later hsel h
  have hexec := exec_setWaveform_of_le s hsel
  rw [← decode_encode (i := .setWaveform sel) rfl] at hexec
  set t := answer 0x00 { s with wave := selectorCode sel }
  have hwave {code : BitVec 2} (hcode : sel.toNat = code.toNat) : t.wave = code :=
    BitVec.eq_of_toNat_eq ((selectorCode_toNat hsel).trans hcode)
  have hlt : nextIndex s < s.config.tableSize := nextIndex_lt s
  refine ⟨_, sampleByte t, run_two_of_command_and_tick (.inr h) hexec, rfl, fun h0 => ?saw, fun h1 hlow => ?lower,
    fun h1 hup => ?upper, fun h2 hgt => ?high, fun h2 hle => ?low, fun h3 => ?noise, fun hne => ?kept⟩
  case saw => exact sampleByte_saw (hwave (code := 0) h0)
  case lower => exact (sampleByte_triangle (hwave (code := 1) h1)).trans (triangle_of_lower hlow)
  case upper => exact (sampleByte_triangle (hwave (code := 1) h1)).trans (triangle_of_upper hlt hup)
  case high => exact (sampleByte_rectangle_toInt (hwave (code := 2) h2)).trans (rectangle_of_gt hgt)
  case low => exact (sampleByte_rectangle_toInt (hwave (code := 2) h2)).trans (rectangle_of_le hle)
  case noise =>
    have hstepped : (sampled t).lfsr = lfsrStep s.lfsr := lfsrAfter_noise (hwave (code := 3) h3) _
    refine ⟨(congrArg BitVec.toNat hstepped).trans (lfsrStep_toNat _), ?_⟩
    change (sampleByte t).toNat = (sampled t).lfsr.toNat / 2 ^ 8
    rw [sampleByte_noise (hwave (code := 3) h3), highByte_toNat, hstepped]
    rfl
  case kept =>
    refine lfsrAfter_of_ne (fun hcode => hne ?_) _
    rw [← selectorCode_toNat hsel]
    exact congrArg BitVec.toNat hcode

/-- Settles O55, by induction on the list of presentations. -/
theorem runIsTheFoldOfThePresentedOperations : Obligations.RunIsTheFoldOfThePresentedOperations :=
  fun _ => run_instants _ rfl

/-- Settles O1: these are the values of `State.ofConfig`. -/
theorem instanceStartsAtResetValues : Obligations.InstanceStartsAtResetValues :=
  ⟨fun _ => ⟨rfl, rfl, rfl, rfl, rfl, rfl, rfl⟩, rfl, rfl, rfl, rfl, rfl, rfl, rfl⟩

/-- Settles O2: reset is the instant's passing and the reset values. -/
theorem rstPutsAllRegistersAtReset : Obligations.RstPutsAllRegistersAtReset :=
  fun _ _ _ h hr => ⟨_, step_rst h hr, rfl, rfl, rfl, rfl, rfl, rfl, rfl, rfl, rfl, rfl⟩

/-- Settles O3: reset looks at no port, and a command leaves the coinciding request presented. -/
theorem simultaneousRequestsAreOrdered : Obligations.SimultaneousRequestsAreOrdered := by
  refine ⟨fun s tick cmd later h => ?_, fun s word later h => ?_⟩
  · exact ⟨_, step_rst h rfl, ⟨rfl, rfl, rfl, rfl, rfl, rfl, rfl⟩, rfl⟩
  · obtain ⟨u, hu⟩ := exec_total (decode word) s
    exact ⟨u, _, hu, step_of_coincidence h hu, sameRegisters_withPorts _ _ _ _ _, rfl⟩

/-- Settles O4: the two steps of a coincidence. -/
theorem coincidingSampleIsHeldAndPerformedSecond : Obligations.CoincidingSampleIsHeldAndPerformedSecond := by
  intro s word later h
  obtain ⟨t, ht⟩ := exec_total (decode word) s
  exact ⟨t, sampled t, _, run_two_of_command_and_tick (.inl h) ht, ht, exec_nextSample_eq t,
    sameRegisters_withPorts _ _ _ _ _, rfl, rfl⟩

/-- Settles O5: the instant passes and the operation is performed. -/
theorem stepPerformsThePresentedWord : Obligations.StepPerformsThePresentedWord :=
  fun _ _ _ h => step_command h

/-- Settles O6: the word decodes to NEXT_SAMPLE, which a request performs. -/
theorem tickPerformsNextSampleOnItsPort : Obligations.TickPerformsNextSampleOnItsPort := by
  intro s later h
  have hword : decode 0x100000000 = .nextSample := by decide
  rw [hword]
  exact ⟨_, sampled s, step_of_tickOnly h, exec_nextSample_eq s, sameRegisters_withPorts _ _ _ _ _, rfl, rfl, rfl⟩

/-- Settles O7: nothing of a number that fits is lost on the way to the command port. -/
theorem fetchedWordRunsNext : Obligations.FetchedWordRunsNext := by
  intro s nbits w hbits hword
  have hfits : w % 2 ^ nbits = w := Nat.mod_eq_of_lt hbits
  refine ⟨?_, ?_⟩
  · rw [decodeTableWord, hfits, wordOfNat, if_pos hword]
  · rw [State.withFetchWord, hfits, step_command (presentCommand_inputs _ s)]
    rfl

/-- Settles O8: an idle instant writes no register. -/
theorem idlePortsHoldEveryRegister : Obligations.IdlePortsHoldEveryRegister := by
  intro n s h
  refine run_keeps (P := fun t => SameRegisters s t ∧ t.inputs = []) (fun t u ⟨hsame, hidle⟩ hu => ?_) n
    ⟨sameRegisters_refl s, h⟩
  rw [step_quiet hidle] at hu
  cases hu
  exact ⟨sameRegisters_trans hsame (sameRegisters_withPorts _ _ _ _ _), rfl⟩

end Sys2Proof.PortsAndRuns
end

section
/-! PROOFS. One flag at a time, one frequency in any form, and the selector that is recognized (41_configuration.md
R100, 42_frequency_conversion.md section 3, 60_exceptions.md section 1). -/

namespace Sys2Proof.FlagsAndForms

open Sys2Proof Sys2Proof.Machine Sys2Proof.Spec
open Sys2Proof.SampleGeneration (exec_total)
open Sys2Proof.Configuration (selectorCode_toNat)
open Sys2Proof.FrequencyConversion
open Sys2Proof.Violations

/-! ### One flag at a time -/

/-- The flag of a cause is set after an operation exactly when it was before or the operation raises the cause. -/
theorem exec_flag_iff {i : Instr} {s t : State} (h : exec i s = .next t) (v : Violation) :
    t.fault.getLsbD (causeBit v) = true ↔ s.fault.getLsbD (causeBit v) = true ∨ Raises s.config i v := by
  obtain ⟨w, hw, e⟩ | ⟨hin, e⟩ := exec_recordsItsCause h
  · have hcause : w = v ↔ Raises s.config i v := ⟨fun hwv => hwv ▸ hw, raises_unique hw⟩
    rw [e, faultWith_getLsbD, Bool.or_eq_true, decide_eq_true_iff, hcause]
  · rw [e, or_iff_left (hin v)]

/-- An operation that does not raise a cause leaves its flag as it is. -/
theorem exec_flag_of_not_raises {i : Instr} {s t : State} (h : exec i s = .next t) {v : Violation}
    (hv : ¬ Raises s.config i v) : t.fault.getLsbD (causeBit v) = s.fault.getLsbD (causeBit v) := by
  rw [Bool.eq_iff_iff, exec_flag_iff h, or_iff_left hv]

/-- SETF_INT and SETF_FLOAT carry no rate constraint (R117). -/
theorem not_raises_rate_unconstrained (c : Config) (a : Arg) :
    ¬ Raises c (.setfInt a) .rate ∧ ¬ Raises c (.setfFloat a) .rate := by
  simp [Raises]

/-- `R = 65` meets the constraint of the fixed-point forms (R117). -/
theorem not_raises_rate_fixedPoint {c : Config} (h : 65 ≤ c.updateRate) (a : Arg) :
    ¬ Raises c (.setfQ24n8 a) .rate ∧ ¬ Raises c (.setfQ16n16 a) .rate := by
  have hgt : ¬ c.updateRate ≤ 64 := by omega
  simp [Raises, hgt]

/-! ### One frequency in any form -/

/-- The conversion looks at the frequency, not at its form (R123). -/
theorem increment_congr (c : Config) {x y : Frequency} (h : hertz x = hertz y) : increment c x = increment c y := by
  have hfloor : (increment c x : ℤ) = increment c y := by
    rw [increment_eq_floor, increment_eq_floor, h]
  exact_mod_cast hfloor

theorem isFrequencyOp_of_frequencyOf {i : Instr} {f : ℚ} (h : frequencyOf i = some f) : isFrequencyOp i = true := by
  cases i with
  | setfInt _ => rfl
  | setfFloat _ => rfl
  | setfQ24n8 _ => rfl
  | setfQ16n16 _ => rfl
  | _ => cases h

/-! ### The statements -/

/-- Settles O41: both forms commit the conversion of the one frequency. -/
theorem entryPointsAgreeOnEqualFrequencies : Obligations.EntryPointsAgreeOnEqualFrequencies := by
  intro s i j f hri hrj hfi hfj
  obtain ⟨x, hx, ei⟩ := exec_of_frequencyOf hri hfi
  obtain ⟨y, hy, ej⟩ := exec_of_frequencyOf hrj hfj
  have hi := ei s rfl
  refine ⟨_, hi, ?_, exec_commits hri hfi hi, exec_frequency_frame (isFrequencyOp_of_frequencyOf hfi) hi⟩
  rw [ej s rfl, increment_congr s.config (hx.trans hy.symm)]

/-- Settles O44, cause by cause. -/
theorem faultBitsAreSetExactlyOnTheirConditions : Obligations.FaultBitsAreSetExactlyOnTheirConditions := by
  intro i s
  obtain ⟨t, ht⟩ := exec_total i s
  exact ⟨t, ht, exec_flag_iff ht⟩

/-- Settles O30: a recognized selector is stored. -/
theorem setWaveformStoresARecognizedSelector : Obligations.SetWaveformStoresARecognizedSelector := by
  intro s sel hsel
  have hexec := exec_setWaveform_of_le s hsel
  exact ⟨_, hexec, selectorCode_toNat hsel, rfl, rfl, rfl, rfl, rfl, rfl, exec_keeps_outside hexec⟩

/-- Settles O39: the fixed-point forms look at the update rate first, the other two not at all. -/
theorem rateFloorRefusesFixedPointFrequencies : Obligations.RateFloorRefusesFixedPointFrequencies := by
  intro s a
  refine ⟨fun hle => ?refused, fun hge => ?allowed, ?unconstrained⟩
  case refused =>
    have hfault := faultWith_rate s.fault
    refine ⟨violate .rate s, violate .rate s, ?_, ?_, rfl, rfl, hfault, hfault⟩
    · rw [exec_setfQ24n8, fixedPointFrequency_of_le hle]
    · rw [exec_setfQ16n16, fixedPointFrequency_of_le hle]
  case allowed =>
    obtain ⟨hq24n8, hq16n16⟩ := not_raises_rate_fixedPoint hge a
    have ht := exec_setfQ24n8 s a
    have hu := exec_setfQ16n16 s a
    exact ⟨_, _, ht, hu, exec_flag_of_not_raises ht hq24n8, exec_flag_of_not_raises hu hq16n16⟩
  case unconstrained =>
    obtain ⟨hint, hfloat⟩ := not_raises_rate_unconstrained s.config a
    have ht := exec_setfInt s a
    have hu := exec_setfFloat s a
    exact ⟨_, _, ht, hu, exec_flag_of_not_raises ht hint, exec_flag_of_not_raises hu hfloat⟩

end Sys2Proof.FlagsAndForms
end
